-- ==== Sys2Proof/Word.lean ====
section
/-! DEFINITION. The machine's two bit-vector types (rules R17, R33). A physical address is a plain Nat (rule R33, log 12). -/

namespace Sys2Proof

/-- A byte is 8 bits and memory is byte-addressed (rule R33, general knowledge GK19). -/
abbrev Byte := BitVec 8

/-- A 64-bit register, linear address or offset into DS (rules R17, R45, general knowledge GK2). -/
abbrev Word := BitVec 64

end Sys2Proof
end

