-- ==== Sys2Proof/Config.lean ====
section
/-! DEFINITION. The parameters of rule R6 that are plain data, as one structure that State carries and no
step writes, and the free values and uninterpreted functions of the spec as constants with no body. -/

namespace Sys2Proof

/-- The seven page types the source names, and any further one (rules R35, R98). -/
inductive PageType where
  | reg
  | tcs
  | trim
  | ssFirst
  | ssRest
  | secs
  | va
  /-- A type that is none of the seven, by the value its `PT` field holds (rules R35, R98). -/
  | other (value : BitVec 8)
  deriving DecidableEq, Repr, Inhabited

/-- Offsets of the four 8-byte PAGEINFO fields; `pcmd` is overlaid on `SECINFO` (rule R52). -/
structure PageInfoLayout where
  linaddr : Nat
  srcpge : Nat
  pcmd : Nat
  secs : Nat
  deriving DecidableEq, Repr

/-- Offsets and sizes of the PCMD fields; `ENCLAVEID` is 8 bytes (rule R53). -/
structure PcmdLayout where
  secinfo : Nat
  secinfoSize : Nat
  enclaveId : Nat
  reserved : Nat
  reservedSize : Nat
  mac : Nat
  macSize : Nat
  deriving DecidableEq, Repr

/-- Lowest bit of each subfield of the 64-bit `SECINFO.FLAGS` (rule R55). -/
structure FlagsLayout where
  rwx : Nat
  pending : Nat
  modified : Nat
  pr : Nat
  pt : Nat
  deriving DecidableEq, Repr

/-- The values of the four error codes (rule R85). -/
structure ErrorCodes where
  pageNotBlocked : Word
  notTracked : Word
  vaSlotOccupied : Word
  childPresent : Word
  deriving DecidableEq, Repr

/-- The 8-bit values of the seven page types (rule R35). -/
structure PageTypeValues where
  secs : BitVec 8
  tcs : BitVec 8
  reg : BitVec 8
  va : BitVec 8
  trim : BitVec 8
  ssFirst : BitVec 8
  ssRest : BitVec 8
  deriving DecidableEq, Repr

/-- The parameters of rule R6 that are plain data: constant over a run (rule R43).
`State` carries one `Config`, so a statement about every state holds for every value of every parameter. -/
structure Config where
  /-- `ENCLS_BYTES`; `ILEN` is their number (rule R73). -/
  enclsBytes : List Byte
  codes : ErrorCodes
  pageTypes : PageTypeValues
  pageInfo : PageInfoLayout
  pcmd : PcmdLayout
  /-- `OFF_SECINFO_FLAGS` (rule R54). -/
  secinfoFlags : Nat
  flags : FlagsLayout
  /-- `VEC_GP`, `VEC_PF` (rule R131) and `VEC_NOPRIV` (rule R142). -/
  vecGp : Nat
  vecPf : Nat
  vecNoPriv : Nat
  /-- `EXIT_REASON_SGX_CONFLICT` and `EPC_PAGE_CONFLICT_EXCEPTION` (rule R124). -/
  exitReasonSgxConflict : Nat
  epcPageConflictException : Nat
  /-- The implemented linear-address width inside `Canonical` (rule R47). -/
  linearWidth : Nat
  deriving DecidableEq, Repr

/-- `ILEN`, the length in bytes of the `ENCLS` instruction (rule R73). -/
def Config.ilen (cfg : Config) : Nat := cfg.enclsBytes.length

/-- The MAC header record handed to `AES_GCM_ENC`; every other bit of the 128 bytes is 0 (rule R56). -/
structure MacHeader where
  eid : Word
  linaddr : Word
  pt : PageType
  rwx : BitVec 3
  pending : Bool
  modified : Bool
  pr : Bool
  deriving DecidableEq, Repr, Inhabited

/-- The six environment predicates of rule R42, inputs of the step that the model does not compute, and whether another
SGX instruction is in flight, without which the first four are false (`State.srcConflict` and the three after it in
Ops.lean; log 3). -/
structure Environment where
  /-- Another SGX instruction is in flight while this EWB executes (rules R42, R123, R126). -/
  inFlight : Bool
  /-- Another SGX instruction is accessing the source page (rule R123). -/
  srcConflict : Bool
  /-- The VA page is being modified (rules R125, R127). -/
  vaModified : Bool
  /-- Another SGX instruction is accessing the SECS page (rule R126). -/
  secsConflict : Bool
  /-- The tracking resource is in use (rule R126). -/
  trackingResourceInUse : Bool
  /-- The negation of "EBLOCK is not correct" (rule R97). -/
  eblockCorrect : Bool
  /-- The negation of "Tracking not correct" (rule R101). -/
  trackingCorrect : Bool
  deriving DecidableEq, Repr, Inhabited

/-- `AES_GCM_ENC`: key, counter, header, header size, source, source size; ciphertext and MAC.
Nothing is assumed of it but that its result depends on its arguments alone (rule R109, log 6). -/
opaque Config.aesGcmEnc (macSize : Nat) (key : BitVec 128) (counter : Nat) (header : MacHeader) (headerSize : Nat)
    (source : Vector Byte 4096) (sourceSize : Nat) : Vector Byte 4096 × Vector Byte macSize

/-- The `n`-th draw of `TMP_VER`: under no law (rules R41, R108, log 2). -/
opaque Config.freeVersion : Nat → Word

/-- The `n`-th draw of the environment, under no law of its own; the law of rule R42 is in the operations that read it
(log 3). -/
opaque Config.freeEnvironment : Nat → Environment

/-- The `n`-th draw of the error code of a page fault that EWB raises itself (rule R134, log 4). -/
opaque Config.freePfErrorCode : Nat → Nat

/-- The `n`-th draw of the content of an evicted page (rule R38, log 5). -/
opaque Config.freePageContent : Nat → Vector Byte 4096

/-- `CR_BASE_PK` at reset: no value may be assumed of it (rules R31, R148, log 17). -/
opaque Config.resetBasePk : BitVec 128

/-- `EXIT_REASON_SGX_CONFLICT`: a parameter the spec gives no default (rule R124, log 1). -/
opaque Config.exitReasonUnstated : Nat

/-- `EPC_PAGE_CONFLICT_EXCEPTION`: a parameter the spec gives no default (rule R124, log 1). -/
opaque Config.conflictCodeUnstated : Nat

end Sys2Proof
end

