-- ==== Sys2Proof/Machine/Defaults.lean ====
section
/-! DEFINITION. The default values of the parameters (rule R6's table, general knowledge GK1, GK4 to GK8, GK10). -/

namespace Sys2Proof.Machine

/-- The default layout of rule R52. -/
def defaultPageInfo : PageInfoLayout := { linaddr := 0, srcpge := 8, pcmd := 16, secs := 24 }

/-- The default layout of rule R53. -/
def defaultPcmd : PcmdLayout :=
  { secinfo := 0, secinfoSize := 64, enclaveId := 64, reserved := 72, reservedSize := 40, mac := 112, macSize := 16 }

/-- The default bit layout of rule R55. -/
def defaultFlags : FlagsLayout := { rwx := 0, pending := 3, modified := 4, pr := 5, pt := 8 }

/-- Every parameter at the default of rule R6; the two that have none are constants with no body (rule R124).
The width 48 is that of the start world W0 of 95_test_vectors.md (log 22). -/
def defaultConfig : Config where
  enclsBytes := [0x0F, 0x01, 0xCF]
  codes := { pageNotBlocked := 10, notTracked := 11, vaSlotOccupied := 12, childPresent := 13 }
  pageTypes := { secs := 0, tcs := 1, reg := 2, va := 3, trim := 4, ssFirst := 5, ssRest := 6 }
  pageInfo := defaultPageInfo
  pcmd := defaultPcmd
  secinfoFlags := 0
  flags := defaultFlags
  vecGp := 13
  vecPf := 14
  vecNoPriv := 6
  exitReasonSgxConflict := Config.exitReasonUnstated
  epcPageConflictException := Config.conflictCodeUnstated
  linearWidth := 48

end Sys2Proof.Machine
end

