-- ==== Sys2Proof/Syntax.lean ====
section
/-! DEFINITION. The instruction set: the one row of spec/opcode_table.json (rules R72, R77). -/

namespace Sys2Proof

/-- One constructor per row of the opcode table.
The row has no field: every operand of the leaf is an implicit register (rules R72, R76). -/
inductive Instr where
  /-- `ENCLS[EWB]`: `ENCLS` executed with `EAX = 0x0B` (rules R1, R82). -/
  | enclsEwb
  deriving DecidableEq, Repr

/-- What stands before the decoder for one `ENCLS` leaf: the bytes in the instruction stream and the
32-bit selector in `EAX` (rule R72's table of the format). -/
structure Encoding where
  bytes : List Byte
  selector : BitVec 32
  deriving DecidableEq, Repr

end Sys2Proof
end

