-- ==== Sys2Proof/WellFormed.lean ====
section
/-! DEFINITION. Well-formedness: of an instruction, which has no field to check, and of the parameters, which is
the premise `P_codes` of rule R149 (conditions of rules R35, R52, R53, R55, R85). -/

namespace Sys2Proof

/-- The one row has no field (opcode table, rule R72), so every instruction is well formed. -/
def Instr.wellFormed : Instr → Bool
  | .enclsEwb => true

/-- Fields given as (start, size) lie inside `limit` and pairwise share nothing. -/
def fieldsFit (limit : Nat) (fields : List (Nat × Nat)) : Bool :=
  fields.all (fun f => decide (f.1 + f.2 ≤ limit)) &&
    decide (fields.Pairwise fun f g => f.1 + f.2 ≤ g.1 ∨ g.1 + g.2 ≤ f.1)

/-- The four error codes are non-zero and pairwise distinct (rule R85). -/
def ErrorCodes.ok (c : ErrorCodes) : Bool :=
  let l := [c.pageNotBlocked, c.notTracked, c.vaSlotOccupied, c.childPresent]
  l.all (· != 0) && decide l.Nodup

/-- The seven page-type values are pairwise distinct (rule R35). -/
def PageTypeValues.ok (v : PageTypeValues) : Bool :=
  decide [v.secs, v.tcs, v.reg, v.va, v.trim, v.ssFirst, v.ssRest].Nodup

/-- Four 8-byte fields, disjoint, inside the 32 bytes (rule R52). -/
def PageInfoLayout.ok (l : PageInfoLayout) : Bool :=
  fieldsFit 32 [(l.linaddr, 8), (l.srcpge, 8), (l.pcmd, 8), (l.secs, 8)]

/-- Four fields, disjoint, inside the 128 bytes (rule R53). -/
def PcmdLayout.ok (l : PcmdLayout) : Bool :=
  fieldsFit 128 [(l.secinfo, l.secinfoSize), (l.enclaveId, 8), (l.reserved, l.reservedSize), (l.mac, l.macSize)]

/-- The subfields of `FLAGS` are disjoint bit fields of 64 bits (rules R55, R116 item 7, log 25). -/
def FlagsLayout.ok (l : FlagsLayout) : Bool :=
  fieldsFit 64 [(l.rwx, 3), (l.pending, 1), (l.modified, 1), (l.pr, 1), (l.pt, 8)]

/-- The premise `P_codes` (rule R149), with the `FLAGS` word inside the SECINFO (rule R54, log 25). -/
def Config.ok (cfg : Config) : Bool :=
  cfg.codes.ok && cfg.pageTypes.ok && cfg.pageInfo.ok && cfg.pcmd.ok &&
    decide (cfg.secinfoFlags + 8 ≤ cfg.pcmd.secinfoSize) && cfg.flags.ok

end Sys2Proof
end

