-- ==== Sys2Proof/Decode.lean ====
section
/-! DEFINITION. Decoding: `ENCLS_BYTES` in the instruction stream, then the leaf by `EAX` (rules R72 to R78);
after it the encoder, from the same table. -/

namespace Sys2Proof

/-- Why the bytes and the selector are no instruction of the admitted subset. -/
inductive DecodeError where
  /-- The bytes at `RIP` do not begin with the bare `ENCLS_BYTES`: another instruction, or a prefixed form (rule R75). -/
  | notEncls
  /-- `ENCLS` with a selector that is no row of the table (rule R78). -/
  | otherLeaf (selector : BitVec 32)
  deriving DecidableEq, Repr

/-- One row of the opcode table: a pattern over the 32-bit selector `EAX` (rule R77). -/
structure OpcodeRow where
  mask : BitVec 32
  pattern : BitVec 32
  instr : Instr
  deriving DecidableEq, Repr

/-- The opcode table of the spec: match `0x0000000B` under mask `0xFFFFFFFF` (rules R74, R77). -/
def opcodeTable : List OpcodeRow := [{ mask := 0xFFFFFFFF, pattern := 0x0000000B, instr := .enclsEwb }]

/-- The row whose pattern the selector matches; the whole 32-bit value is compared (rule R74). -/
def leafOf (selector : BitVec 32) : Option Instr :=
  (opcodeTable.find? fun r => selector &&& r.mask == r.pattern).map (·.instr)

/-- The rest of `stream` after `bytes`, if it begins with them. -/
def stripBytes : (bytes stream : List Byte) → Option (List Byte)
  | [], rest => some rest
  | _ :: _, [] => none
  | b :: bs, c :: cs => if b = c then stripBytes bs cs else none

/-- The decoder: total on any bytes and any selector; the rest of the stream comes back with the instruction. -/
def decode (cfg : Config) (stream : List Byte) (selector : BitVec 32) : Except DecodeError (Instr × List Byte) :=
  match stripBytes cfg.enclsBytes stream with
  | none => .error .notEncls
  | some rest =>
    match leafOf selector with
    | none => .error (.otherLeaf selector)
    | some i => .ok (i, rest)

/-- The selector that chooses the leaf (opcode table, rules R72, R74). -/
def selectorOf : Instr → BitVec 32
  | .enclsEwb => 0x0000000B

/-- The encoder: the bare bytes of `ENCLS` and the selector of the leaf (rule R72's table). -/
def encode (cfg : Config) (i : Instr) : Encoding := { bytes := cfg.enclsBytes, selector := selectorOf i }

/-- The instruction the decoder reads from a word of the opcode table.
The table's 32 bits are the selector `EAX` (its `pattern_over`), and the instruction stream holds `ENCLS_BYTES`;
a word that does not fit in `EAX` is none (log 40). -/
def decodeTableWord (nbits w : Nat) : Option Instr :=
  let v := w % 2 ^ nbits
  if v < 2 ^ 32 then
    match decode Machine.defaultConfig Machine.defaultConfig.enclsBytes (BitVec.ofNat 32 v) with
    | .ok (i, _) => some i
    | .error _ => none
  else none

end Sys2Proof
end

