-- ==== Sys2Proof/Machine/Bits.lean ====
section
/-! DEFINITION. Byte order, alignment and page arithmetic (rules R57, R58, R116). -/

namespace Sys2Proof.Machine

/-- The low `8n` bits of `v` as `n` bytes, the byte at the lowest address least significant (rules R50, R57). -/
def leBytes : (n : Nat) → (v : Nat) → List Byte
  | 0, _ => []
  | n + 1, v => BitVec.ofNat 8 v :: leBytes n (v / 256)

/-- The unsigned integer a byte string spells, the first byte least significant (rules R50, R57). -/
def ofLeBytes : List Byte → Nat
  | [] => 0
  | b :: bs => b.toNat + 256 * ofLeBytes bs

/-- `n` zero bytes (rule R110). -/
def zeroBytes (n : Nat) : List Byte := List.replicate n 0

/-- `la mod n = 0` (rules R58, R116 item 3). -/
def aligned (la : Word) (n : Nat) : Bool := la.toNat % n == 0

/-- The address of the 4096-byte page that contains an address (rules R8, R49, R116 item 4). -/
def pageOf (pa : Nat) : Nat := pa - pa % 4096

/-- Two byte regions share no byte (rule R67). -/
def regionsDisjoint (a : Nat) (sizeA : Nat) (b : Nat) (sizeB : Nat) : Bool :=
  decide (a + sizeA ≤ b) || decide (b + sizeB ≤ a)

end Sys2Proof.Machine
end

