-- ==== Sys2Proof/Machine/State.lean ====
section
/-! DEFINITION. The machine's state as plain data (spec/10_state.md), the reasons a step stops, and the state after reset. -/

namespace Sys2Proof.Machine

/-- Memory: (physical address, byte) pairs, addresses strictly rising, no entry equal to what an unlisted address
reads as (`Memory.wf` in Ops.lean). It covers the regular memory and the contents of the EPC pages (rules R33, R38). -/
abbrev Memory := List Host.Cell

/-- `MODE` (rule R26): the two modes that have an exception list, and the modes that have none (rule R144). -/
inductive Mode where
  | mode64
  | modeProt
  | realAddress
  | virtual8086
  | compatibility
  | systemManagement
  deriving DecidableEq, Repr

/-- The four general registers EWB names (rule R17). -/
structure Regs where
  rax : Word
  rbx : Word
  rcx : Word
  rdx : Word
  deriving DecidableEq, Repr

/-- The names of the four general registers (rules R9, R17). -/
inductive Reg where
  | rax
  | rbx
  | rcx
  | rdx
  deriving DecidableEq, Repr

/-- The segment register DS: its base, and the offsets inside its limit as an interval (rules R24, R46, log 21). -/
structure Segment where
  base : Word
  lowest : Nat
  highest : Nat
  deriving DecidableEq, Repr

/-- What paging answers for a page and a kind of access: a physical frame or an error code (rule R48). -/
inductive Translation where
  | frame (number : Nat)
  | pageFault (errorCode : Nat)
  deriving DecidableEq, Repr

/-- The kind of access `Translate` is asked about (rule R48). -/
inductive Access where
  | read
  | write
  deriving DecidableEq, Repr

/-- The translation of one 4096-byte linear page, by kind of access (rule R48). -/
structure PageMapping where
  page : Nat
  onRead : Translation
  onWrite : Translation
  deriving DecidableEq, Repr

/-- Paging state: the mapped pages, and the error code of every other page (rules R27, R48, log 12). -/
structure Paging where
  pages : List PageMapping
  unmappedCode : Nat
  deriving DecidableEq, Repr

/-- The five VMCS fields EWB writes on the VM exit (rules R30, R124). -/
structure Vmcs where
  exitReason : Nat
  exitQualificationCode : Nat
  exitQualificationError : Nat
  guestPhysicalAddress : Nat
  guestLinearAddress : Word
  deriving DecidableEq, Repr

/-- One EPCM entry (rule R34). -/
structure EpcmEntry where
  valid : Bool
  pt : PageType
  blocked : Bool
  enclaveAddress : Word
  rwx : BitVec 3
  pending : Bool
  modified : Bool
  pr : Bool
  /-- `ENCLAVESECS`: the EPC page, by its physical address, that is this page's SECS (rules R34, R36). -/
  enclaveSecs : Option Nat
  deriving DecidableEq, Repr

/-- One EPC page: its EPCM entry and the two abstract SECS fields of its content (rules R34, R37).
Its 4096 bytes are in memory (rule R38). -/
structure EpcPage where
  entry : EpcmEntry
  secsEid : Word
  secsVirtChildCnt : Nat
  deriving DecidableEq, Repr

/-- Every EPC page with its entry, keyed by the page's physical address; `InEPC` is membership (rules R34, R49, R64). -/
abbrev Epc := List (Nat × EpcPage)

/-- A run of bytes an EWB of this run wrote: start and length (rule R70). -/
abbrev Region := Nat × Nat

/-- What a raised fault records (rule R131). -/
structure FaultRecord where
  vector : Nat
  /-- The error code pushed; none for the fault taken at CPL > 0 (rule R142). -/
  errorCode : Option Nat
  /-- The faulting linear address of a page fault, for the handler in CR2 (rule R131). -/
  address : Option Word
  /-- The instruction pointer of the `ENCLS` (rules R20, R131). -/
  rip : Word
  deriving DecidableEq, Repr

/-- The faults EWB raises: terminal outcomes that leave all state unchanged (rules R131, R137, R138). -/
inductive Fault where
  /-- `#GP(0)`, raised at S1, S3, S5, S7, S8, S9, S10, S13 (rule R132); safe: the spec's own outcome. -/
  | generalProtection (record : FaultRecord)
  /-- `#PF`, raised at S2, S4, S6, S8, S11, S12 (rule R133); safe: the spec's own outcome. -/
  | pageFault (record : FaultRecord)
  /-- The fault taken at `CPL ≠ 0` (rule R142); safe: only its vector is presumed (log 9). -/
  | notPrivileged (record : FaultRecord)
  deriving DecidableEq, Repr

/-- The situations the model gives no meaning (93_implementation_defined.md section 3; rule R16). -/
inductive Refusal where
  /-- An instruction that has no meaning yet; raised by exec's arms only; safe. -/
  | notModelled (mnemonic : String)
  /-- A byte of the instruction at this linear address does not translate for reading; raised by fetch; safe (log 19). -/
  | fetchNotMapped (address : Word)
  /-- Item 11: an instruction byte that an EWB of this run wrote; raised by fetch; safe (rule R70). -/
  | fetchFromEwbWrite (address : Nat)
  /-- Item 4: the bytes are not the bare `ENCLS_BYTES`; raised by step; safe (rule R75). -/
  | notEncls
  /-- Item 3: `ENCLS` with `EAX` other than `0x0B`; raised by step; safe (rule R78). -/
  | otherLeaf (selector : BitVec 32)
  /-- Item 12: premise `P_no_fault`, a VM exit has been recorded; raised by EWB; safe (rules R139, R149). -/
  | vmExitRecorded
  /-- Item 1: `MODE` is neither `Mode64` nor `ModeProt`; raised by EWB; safe (rule R144). -/
  | modeNotAdmitted
  /-- Item 1: paging is off; raised by EWB; safe (rule R144). -/
  | pagingOff
  /-- Item 2: SGX1 absent or not enabled; raised by EWB; safe (rule R32). -/
  | sgx1Unavailable
  /-- Item 1: the processor is executing inside an enclave; raised by EWB; safe (rule R144). -/
  | insideEnclave
  /-- Item 12: premise `P_codes` does not hold of the parameters; raised by EWB; safe (rule R149). -/
  | parametersIllFormed
  /-- Item 5: `RIP + ILEN` wraps; raised by EWB; safe (rule R20). -/
  | ripWraps
  /-- Item 12: premise `P_epcm_total`, the EPCM has not one entry for each 4096-aligned EPC page; raised by EWB; safe
  (rule R149, log 13). -/
  | epcmNotTotal
  /-- Item 12: premise `P_pt`, an EPC page other than the source page is valid and its type is none of the seven; raised
  by EWB; safe (rule R149, log 38). -/
  | startTypeNotNamed
  /-- Item 12: premise `P_secs_link`, an EPC page other than the source page is a valid child page whose link names no
  valid SECS page; raised by EWB; safe (rule R149, log 38). -/
  | startLinkBroken
  /-- Item 6: PAGEINFO, the output page or the PCMD lies in the EPC; raised by EWB after S8; safe (rule R66). -/
  | nonEpcOperandInEpc
  /-- Item 7: two of PAGEINFO, the output page and the PCMD share a byte; raised by EWB after S8; safe (rule R67). -/
  | operandsOverlap
  /-- Item 8: the source page's type is none of the seven; raised by EWB at S13; safe (rule R98). -/
  | pageTypeNotNamed
  /-- Item 9: the SECS link of a child page names no valid SECS page; raised by EWB at S13; safe (rule R36). -/
  | secsLinkBroken
  deriving DecidableEq, Repr

/-- The whole state (spec/10_state.md). `cfg` is configuration that no step writes; `otherAgents`, `env`, `drawCount`,
`vmExited` and `ewbWritten` are the model's own (logs 3, 8, 19). -/
structure State where
  /-- The parameters (rules R6, R43). -/
  cfg : Config
  /-- The operating mode (rule R26). -/
  mode : Mode
  /-- Paging is on (rule R144). -/
  pagingOn : Bool
  /-- CPUID feature flag SGX1 (rule R32). -/
  sgx1Present : Bool
  /-- SGX is enabled (rule R32). -/
  sgx1Enabled : Bool
  /-- The processor is executing inside an enclave (rule R144). -/
  insideEnclave : Bool
  /-- RAX, RBX, RCX, RDX (rule R17). -/
  regs : Regs
  /-- RIP (rule R20). -/
  rip : Word
  /-- RFLAGS, with the six status flags (rules R21, R22). -/
  rflags : Word
  /-- CPL (rule R23). -/
  cpl : BitVec 2
  /-- DS (rule R24). -/
  ds : Segment
  /-- Paging state (rule R27). -/
  paging : Paging
  /-- `VMX_COND` (rules R28, R29). -/
  vmxCond : Bool
  /-- `ENABLE_EPC_VIRTUALIZATION_EXTENSIONS` (rule R28). -/
  epcVirtExtensions : Bool
  /-- The VMCS fields (rule R30). -/
  vmcs : Vmcs
  /-- `CR_BASE_PK` (rule R31). -/
  crBasePk : BitVec 128
  /-- The EPCM and the SECS fields (rules R34, R37). -/
  epc : Epc
  /-- Regular memory and EPC contents (rules R33, R38, R39). -/
  mem : Memory
  /-- Another logical processor may execute SGX instructions in this run; false in a run with a single agent
  (rules R42, R130; log 3). -/
  otherAgents : Bool
  /-- The environment of the next execution (rule R42). -/
  env : Environment
  /-- How many executions have drawn free values (rules R38, R41, R42, R134). -/
  drawCount : Nat
  /-- A VM exit has been recorded: terminal for the agent (rules R139, R149 `P_no_fault`). -/
  vmExited : Bool
  /-- The bytes EWB wrote in this run (rule R70). -/
  ewbWritten : List Region
  deriving DecidableEq, Repr

/-- The state a run starts from. The spec gives no reset value of anything (rules R44, R148): every value is the
model's own and meets the start premises of rule R149 (logs 15, 16, 17). -/
def State.reset : State where
  cfg := defaultConfig
  mode := .mode64
  pagingOn := true
  sgx1Present := true
  sgx1Enabled := true
  insideEnclave := false
  regs := { rax := 0, rbx := 0, rcx := 0, rdx := 0 }
  rip := 0
  rflags := 0
  cpl := 0
  ds := { base := 0, lowest := 0, highest := 0 }
  paging := { pages := [], unmappedCode := 0 }
  vmxCond := false
  epcVirtExtensions := false
  vmcs :=
    { exitReason := 0, exitQualificationCode := 0, exitQualificationError := 0, guestPhysicalAddress := 0,
      guestLinearAddress := 0 }
  crBasePk := Config.resetBasePk
  epc := []
  mem := []
  otherAgents := true
  env := Config.freeEnvironment 0
  drawCount := 0
  vmExited := false
  ewbWritten := []

end Sys2Proof.Machine
end

