-- ==== Sys2Proof/Machine/Flags.lean ====
section
/-! DEFINITION. The six status flags of RFLAGS (rules R21, R22). -/

namespace Sys2Proof.Machine

/-- The six flags EWB writes (rule R21). -/
inductive StatusFlag where
  | cf
  | pf
  | af
  | zf
  | sf
  | of
  deriving DecidableEq, Repr

/-- The flag's bit in RFLAGS (rule R22, general knowledge GK3, log 11). -/
def flagPosition : StatusFlag → Nat
  | .cf => 0
  | .pf => 2
  | .af => 4
  | .zf => 6
  | .sf => 7
  | .of => 11

/-- The word with one flag's bit set and no other. -/
def flagMask (f : StatusFlag) : Word := BitVec.twoPow 64 (flagPosition f)

/-- The value of a flag in a word laid out as RFLAGS. -/
def flagIn (w : Word) (f : StatusFlag) : Bool := w.getLsbD (flagPosition f)

/-- The word with one flag written; every other bit stays (rules R9, R19). -/
def withFlag (w : Word) (f : StatusFlag) (b : Bool) : Word :=
  if b then w ||| flagMask f else w &&& ~~~ flagMask f

/-- `RFLAGS.ZF,CF,PF,AF,OF,SF := 0`; every other bit stays (rules R21, R99). -/
def clearedFlags (w : Word) : Word :=
  [StatusFlag.zf, .cf, .pf, .af, .of, .sf].foldl (fun w f => withFlag w f false) w

/-- A status flag of the state. -/
def State.flag (s : State) (f : StatusFlag) : Bool := flagIn s.rflags f

/-- `flag <- b` (rule R9). -/
def State.setFlag (s : State) (f : StatusFlag) (b : Bool) : State := { s with rflags := withFlag s.rflags f b }

/-- Clears the six status flags together (rule R99). -/
def State.clearStatusFlags (s : State) : State := { s with rflags := clearedFlags s.rflags }

end Sys2Proof.Machine
end

