-- ==== Sys2Proof/Machine/Ops.lean ====
section
/-! DEFINITION. The named operations over registers, memory, paging and the EPCM, taking an exception, the VM exit and
the completion of an instruction. -/

namespace Sys2Proof.Machine

/-! ### Registers -/

/-- `x[r]` (rule R9). -/
def State.reg (s : State) : Reg → Word
  | .rax => s.regs.rax
  | .rbx => s.regs.rbx
  | .rcx => s.regs.rcx
  | .rdx => s.regs.rdx

/-- A register file with one whole register written. -/
def Regs.set (r : Regs) : Reg → Word → Regs
  | .rax, v => { r with rax := v }
  | .rbx, v => { r with rbx := v }
  | .rcx, v => { r with rcx := v }
  | .rdx, v => { r with rdx := v }

/-- `x[r] <- v`, all 64 bits (rules R9, R18). -/
def State.setReg (s : State) (r : Reg) (v : Word) : State := { s with regs := s.regs.set r v }

/-- `EAX`, bits 31:0 of `RAX` (rules R9, R17). -/
def State.eax (s : State) : BitVec 32 := s.regs.rax.setWidth 32

/-! ### Memory -/

/-- What an unlisted address reads as (DESIGN CHOICE, log 14). -/
def unlistedByte (_ : Nat) : Byte := 0

/-- The byte at a physical address. -/
def Memory.read : Memory → Nat → Byte
  | [], x => unlistedByte x
  | (k, b) :: m, x => if k = x then b else Memory.read m x

/-- The cells that hold a byte string from an address on, without those that read the same unlisted. -/
def cellsOf : Nat → List Byte → Memory
  | _, [] => []
  | a, b :: bs => if b = unlistedByte a then cellsOf (a + 1) bs else (a, b) :: cellsOf (a + 1) bs

/-- Writes a byte string from an address on; the canonical form is kept (rule R50's `MemWriteBytes`). -/
def Memory.writeBytes (m : Memory) (a : Nat) (bs : List Byte) : Memory :=
  m.filter (fun c => decide (c.1 < a)) ++ cellsOf a bs ++ m.filter (fun c => decide (a + bs.length ≤ c.1))

/-- The canonical form: addresses strictly rising, no entry equal to what an unlisted address reads as. -/
abbrev Memory.wf (m : Memory) : Prop :=
  m.Pairwise (fun c d => c.1 < d.1) ∧ ∀ c ∈ m, c.2 ≠ unlistedByte c.1

/-- The `n` bytes from an address on (rule R50's `MemReadBytes`). -/
def Memory.readBytes (m : Memory) : Nat → (n : Nat) → List Byte
  | _, 0 => []
  | a, n + 1 => m.read a :: Memory.readBytes m (a + 1) n

/-- `MemRead`: the little-endian unsigned integer in `n` bytes (rules R50, R57). -/
def Memory.readLe (m : Memory) (a : Nat) (n : Nat) : Nat := ofLeBytes (m.readBytes a n)

/-- The 4096 bytes of a page, as the cipher takes them (rules R38, R109). -/
def Memory.readPage (m : Memory) (a : Nat) : Vector Byte 4096 := Vector.ofFn fun i => m.read (a + i.val)

/-- One memory write of the instruction: a byte string and where it goes. -/
structure Write where
  address : Nat
  bytes : List Byte
  deriving DecidableEq, Repr

/-- The bytes a write covers. -/
def Write.covers (w : Write) (x : Nat) : Prop := w.address ≤ x ∧ x < w.address + w.bytes.length

/-- Memory after writes in order, the later one winning (rules R67, R68). -/
def Memory.applyWrites (m : Memory) (ws : List Write) : Memory :=
  ws.foldl (fun m w => m.writeBytes w.address w.bytes) m

/-- Performs writes in order, and records the bytes as written by EWB (rule R70). -/
def State.store (s : State) (ws : List Write) : State :=
  { s with
    mem := s.mem.applyWrites ws
    ewbWritten := s.ewbWritten ++ ws.map fun w => (w.address, w.bytes.length) }

/-- The 8-byte value at a physical address. -/
def State.loadWord (s : State) (pa : Nat) : Word := BitVec.ofNat 64 (s.mem.readLe pa 8)

/-- A byte that an EWB of this run wrote (rule R70). -/
def State.writtenByEwb (s : State) (pa : Nat) : Bool :=
  s.ewbWritten.any fun r => decide (r.1 ≤ pa) && decide (pa < r.1 + r.2)

/-! ### Paging -/

/-- The answer a mapping gives for a kind of access. -/
def PageMapping.answer (m : PageMapping) : Access → Translation
  | .read => m.onRead
  | .write => m.onWrite

/-- The answer for a linear page number; an unmapped page faults with the paging state's code. -/
def Paging.answer (p : Paging) (page : Nat) (acc : Access) : Translation :=
  match p.pages.find? (fun m => m.page == page) with
  | some m => m.answer acc
  | none => .pageFault p.unmappedCode

/-- `Translate(la, acc)`: the physical address with the same offset in its page, or the page fault's error code
(rule R48). -/
def State.translate (s : State) (la : Word) (acc : Access) : Except Nat Nat :=
  match s.paging.answer (la.toNat / 4096) acc with
  | .frame n => .ok (n * 4096 + la.toNat % 4096)
  | .pageFault ec => .error ec

/-! ### EPCM -/

/-- The five page types of `ChildPT` (rule R35). -/
def isChildType : PageType → Bool
  | .reg | .tcs | .trim | .ssFirst | .ssRest => true
  | .secs | .va | .other _ => false

/-- The seven page types the source names (rule R35). -/
def namedType : PageType → Bool
  | .reg | .tcs | .trim | .ssFirst | .ssRest | .secs | .va => true
  | .other _ => false

/-- The number a page type has in `SECINFO.FLAGS.PT` (rule R35). -/
def ptValue (cfg : Config) : PageType → BitVec 8
  | .reg => cfg.pageTypes.reg
  | .tcs => cfg.pageTypes.tcs
  | .trim => cfg.pageTypes.trim
  | .ssFirst => cfg.pageTypes.ssFirst
  | .ssRest => cfg.pageTypes.ssRest
  | .secs => cfg.pageTypes.secs
  | .va => cfg.pageTypes.va
  | .other v => v

/-- The EPC page at a page address, if that page is in the EPC (rule R34). -/
def State.epcPage? (s : State) (page : Nat) : Option EpcPage :=
  (s.epc.find? fun e => e.1 == page).map (·.2)

/-- `InEPC(pa)`: true of whole pages only (rule R49). -/
def State.inEpc (s : State) (pa : Nat) : Bool := (s.epcPage? (pageOf pa)).isSome

/-- The EPCM entry of the EPC page that holds a physical address; for an address outside the EPC, where there is no
entry and no step asks, an invalid one (rules R9, R34). -/
def State.epcm (s : State) (pa : Nat) : EpcmEntry :=
  match s.epcPage? (pageOf pa) with
  | some p => p.entry
  | none =>
    { valid := false, pt := .other 0, blocked := false, enclaveAddress := 0, rwx := 0, pending := false,
      modified := false, pr := false, enclaveSecs := none }

/-- `SecsEID(p)` (rule R37). -/
def State.secsEid (s : State) (page : Nat) : Word := ((s.epcPage? page).map (·.secsEid)).getD 0

/-- `SecsVirtChildCnt(p)` (rule R37). -/
def State.secsVirtChildCnt (s : State) (page : Nat) : Nat :=
  ((s.epcPage? page).map (·.secsVirtChildCnt)).getD 0

/-- An entry that makes its page a child of the SECS page `secs` (rule R40). -/
def EpcmEntry.isChildOf (e : EpcmEntry) (secs : Nat) : Bool :=
  e.valid && isChildType e.pt && e.enclaveSecs == some secs

/-- `HasChild(s)` (rule R40, log 26). -/
def State.hasChild (s : State) (secs : Nat) : Bool := s.epc.any fun e => e.2.entry.isChildOf secs

/-- `page` is an EPC page whose entry is valid with type `PT_SECS` (rule R36). -/
def State.isValidSecs (s : State) (page : Nat) : Bool :=
  match s.epcPage? page with
  | some p => p.entry.valid && p.entry.pt == .secs
  | none => false

/-- One entry for each EPC page: the keys are 4096-aligned and rise, so that none occurs twice (`P_epcm_total` of rule
R149, log 13). -/
def Epc.total (m : Epc) : Bool := decide (m.Pairwise fun a b => a.1 < b.1) && m.all fun e => e.1 % 4096 == 0

/-- What `P_pt` asks of an entry: a valid one holds one of the seven page types (rule R149). -/
def EpcmEntry.typeNamed (e : EpcmEntry) : Bool := !e.valid || namedType e.pt

/-- What `P_secs_link` asks of an entry: a valid one of a child type links to a valid SECS page (rules R36, R149). -/
def State.linkSound (s : State) (e : EpcmEntry) : Bool :=
  !e.valid || !isChildType e.pt || e.enclaveSecs.any s.isValidSecs

/-- An EPC page with its EPCM entry's VALID cleared, every other field as it was (rule R113). -/
def EpcPage.invalidated (p : EpcPage) : EpcPage := { p with entry := { p.entry with valid := false } }

/-- `EPCM(page).VALID <- 0` (rule R113). -/
def State.invalidate (s : State) (page : Nat) : State :=
  { s with epc := s.epc.map fun e => if e.1 = page then (e.1, e.2.invalidated) else e }

/-! ### The environment predicates -/

/-- Another SGX instruction is in flight: never in a run with a single agent (rule R42, log 3). -/
def State.otherInFlight (s : State) : Bool := s.otherAgents && s.env.inFlight

/-- `SrcConflict`: false with no other SGX instruction in flight (rules R42, R123). -/
def State.srcConflict (s : State) : Bool := s.otherInFlight && s.env.srcConflict

/-- `VAModified`: false with no other SGX instruction in flight (rules R42, R125, R127). -/
def State.vaModified (s : State) : Bool := s.otherInFlight && s.env.vaModified

/-- `SecsConflict`, for the source page at a physical address: false with no other SGX instruction in flight, and of
meaning only where the source page has a child type; the type of an invalid entry is not read (rules R42, R113, R126;
log 33). -/
def State.secsConflict (s : State) (paSrc : Nat) : Bool :=
  s.otherInFlight && s.env.secsConflict && (!(s.epcm paSrc).valid || isChildType (s.epcm paSrc).pt)

/-- `TrackingResourceInUse`: false with no other SGX instruction in flight (rules R42, R126). -/
def State.trackingResourceInUse (s : State) : Bool := s.otherInFlight && s.env.trackingResourceInUse

/-! ### Taking an exception, the VM exit, completion -/

/-- The exceptions EWB raises (rules R131, R142). -/
inductive Exception where
  | generalProtection
  | pageFault (address : Word) (errorCode : Nat)
  | notPrivileged
  deriving DecidableEq, Repr

/-- What ends an EWB before its commit point. -/
inductive Stop where
  | exception (e : Exception)
  /-- The VM exit, with the linear and the physical address of the source page (rule R124). -/
  | vmExit (linear : Word) (physical : Nat)
  | refusal (r : Refusal)
  deriving DecidableEq, Repr

/-- Taking an exception, for every instruction and cause: the outcome is the fault with its record, and no state is
written (rules R131, R137, R138, R142; log 7). -/
def takeException (s : State) (e : Exception) : Host.Outcome State Fault Refusal :=
  match e with
  | .generalProtection =>
    .fault (.generalProtection { vector := s.cfg.vecGp, errorCode := some 0, address := none, rip := s.rip })
  | .pageFault la ec =>
    .fault (.pageFault { vector := s.cfg.vecPf, errorCode := some ec, address := some la, rip := s.rip })
  | .notPrivileged =>
    .fault (.notPrivileged { vector := s.cfg.vecNoPriv, errorCode := none, address := none, rip := s.rip })

/-- The draws of this execution are used up: the next one has its own (rules R41, R42; log 3). -/
def State.nextDraws (s : State) : State :=
  { s with drawCount := s.drawCount + 1, env := Config.freeEnvironment (s.drawCount + 1) }

/-- The five VMCS fields of the `SGX_CONFLICT` exit (rule R124). -/
def conflictVmcs (cfg : Config) (la : Word) (pa : Nat) : Vmcs where
  exitReason := cfg.exitReasonSgxConflict
  exitQualificationCode := cfg.epcPageConflictException
  exitQualificationError := 0
  guestPhysicalAddress := pa
  guestLinearAddress := la

/-- The VM exit: the five fields are written, the exit is recorded as terminal, all other state is as before
(rules R124, R139; log 8). -/
def State.deliverVmExit (s : State) (la : Word) (pa : Nat) : State :=
  ({ s with vmcs := conflictVmcs s.cfg la pa, vmExited := true }).nextDraws

/-- Completion: `pc <- pc + ILEN` (rules R20, R114). -/
def State.complete (s : State) : State := ({ s with rip := s.rip + BitVec.ofNat 64 s.cfg.ilen }).nextDraws

/-- The outcome of an instruction that stops before its commit point. -/
def stopped (s : State) : Stop → Host.Outcome State Fault Refusal
  | .exception e => takeException s e
  | .vmExit la pa => .next (s.deliverVmExit la pa)
  | .refusal r => .refused r

/-- Goes on if the condition holds, and stops otherwise. -/
def require (condition : Bool) (otherwise : Stop) : Except Stop Unit :=
  if condition then .ok () else .error otherwise

end Sys2Proof.Machine
end

