-- ==== Sys2Proof/Machine/Operands.lean ====
section
/-! DEFINITION. The one addressing mode of EWB: an offset into DS, its linear address, the limit and canonical tests,
and its physical address (rules R45 to R49). -/

namespace Sys2Proof.Machine

/-- A memory operand: its offset into DS and its linear address. -/
structure Operand where
  off : Word
  la : Word
  deriving DecidableEq, Repr

/-- The operand with offset `v`: all 64 bits with base 0 in Mode64; the low 32 bits, with the sum taken modulo 2^32,
in ModeProt (rules R24, R26, R45). -/
def State.operand (s : State) (v : Word) : Operand :=
  if s.mode = .modeProt then
    { off := (v.setWidth 32).setWidth 64, la := (s.ds.base.setWidth 32 + v.setWidth 32 : BitVec 32).setWidth 64 }
  else { off := v, la := v }

/-- `Canonical(la)`: bits 63 down to the implemented width minus one are all equal (rule R47). -/
def canonical (width : Nat) (la : Word) : Bool :=
  (List.range 64).all fun i => decide (i < width - 1) || la.getLsbD i == la.getLsbD 63

/-- `DSLimitOK(off, size)`: no byte of the operand lies outside the DS limit (rule R46, log 21). -/
def State.dsLimitOk (s : State) (off : Word) (size : Nat) : Bool :=
  decide (s.ds.lowest ≤ off.toNat) && decide (off.toNat + size ≤ s.ds.highest + 1)

/-- `AddrOK`: the limit test in ModeProt, the canonical test in Mode64 (rules R46, R47, R82). -/
def State.addrOk (s : State) (o : Operand) (size : Nat) : Bool :=
  if s.mode = .modeProt then s.dsLimitOk o.off size else canonical s.cfg.linearWidth o.la

/-- The physical address of an operand, translated for writing; `#PF` at its linear address otherwise
(rules R48, R51). -/
def State.resolve (s : State) (o : Operand) : Except Stop Nat :=
  match s.translate o.la .write with
  | .ok pa => .ok pa
  | .error ec => .error (.exception (.pageFault o.la ec))

/-- A page fault that EWB raises itself on a translation that succeeded: its error code is a free value (rule R134). -/
def State.ownPageFault (s : State) (o : Operand) : Stop :=
  .exception (.pageFault o.la (Config.freePfErrorCode s.drawCount))

/-- The physical address of an operand that must resolve within the EPC (rules R49, R88, R90). -/
def State.resolveInEpc (s : State) (o : Operand) : Except Stop Nat := do
  let pa ← s.resolve o
  require (s.inEpc pa) (s.ownPageFault o)
  return pa

end Sys2Proof.Machine
end

