-- ==== Sys2Proof/Machine/Ewb.lean ====
section
/-! DEFINITION. The meaning of `ENCLS[EWB]`: the pseudocode of rule R82, steps S1 to S23. -/

namespace Sys2Proof.Machine

/-! ### Before S1: the model's premises and the privilege check -/

/-- `RIP + ILEN` does not wrap: at most 2^64 - 1 in Mode64, at most 2^32 - 1 in ModeProt (rule R20, log 10). -/
def State.ripOk (s : State) : Bool :=
  decide (s.rip.toNat + s.cfg.ilen < if s.mode = .modeProt then 2 ^ 32 else 2 ^ 64)

/-- The page `RCX` names, where it translates: what `P_pt` and `P_secs_link` ask of that page is tested at S13, after the
faults of S1 to S12 (section 3 of 93_implementation_defined.md; log 38). -/
def State.sourcePage? (s : State) : Option Nat :=
  match s.translate (s.operand (s.reg .rcx)).la .write with
  | .ok pa => some (pageOf pa)
  | .error _ => none

/-- Every EPC page but the source page has an entry of which `p` holds. -/
def State.otherPages (s : State) (p : EpcmEntry → Bool) : Bool :=
  s.epc.all fun e => s.sourcePage? == some e.1 || p e.2.entry

/-- The premises of rules R144 and R149; a state that breaks one is refused (decision D39). -/
def State.premises (s : State) : Except Stop Unit := do
  require (!s.vmExited) (.refusal .vmExitRecorded)
  require (s.mode == .mode64 || s.mode == .modeProt) (.refusal .modeNotAdmitted)
  require s.pagingOn (.refusal .pagingOff)
  require (s.sgx1Present && s.sgx1Enabled) (.refusal .sgx1Unavailable)
  require (!s.insideEnclave) (.refusal .insideEnclave)
  require s.cfg.ok (.refusal .parametersIllFormed)
  require s.ripOk (.refusal .ripWraps)
  require (Epc.total s.epc) (.refusal .epcmNotTotal)
  require (s.otherPages EpcmEntry.typeNamed) (.refusal .startTypeNotNamed)
  require (s.otherPages s.linkSound) (.refusal .startLinkBroken)

/-- "This instruction can only be executed when current privilege level is 0" (rules R86, R142). -/
def State.privileged (s : State) : Except Stop Unit := require (s.cpl == 0) (.exception .notPrivileged)

/-! ### S1 to S5: the register operands -/

/-- The register operands after S5. -/
structure RegOperands where
  /-- PAGEINFO, at `DS:RBX`. -/
  pi : Operand
  /-- The source page, at `DS:RCX`. -/
  src : Operand
  /-- The VA slot, at `DS:RDX`. -/
  va : Operand
  paSrc : Nat
  paVa : Nat
  deriving DecidableEq, Repr

/-- `#GP(0)` unless the condition holds. -/
def gpUnless (condition : Bool) : Except Stop Unit := require condition (.exception .generalProtection)

/-- S1 to S5 (rules R87 to R91; `AddrOK` placed by rule R135). -/
def ewbRegOperands (s : State) : Except Stop RegOperands := do
  let pi := s.operand (s.reg .rbx)
  let src := s.operand (s.reg .rcx)
  let va := s.operand (s.reg .rdx)
  gpUnless (s.addrOk pi 32 && s.addrOk src 4096)
  gpUnless (aligned pi.la 32 && aligned src.la 4096)
  let paSrc ← s.resolveInEpc src
  gpUnless (s.addrOk va 8)
  gpUnless (aligned va.la 8)
  let paVa ← s.resolveInEpc va
  gpUnless (pageOf paSrc != pageOf paVa)
  return { pi := pi, src := src, va := va, paSrc := paSrc, paVa := paVa }

/-! ### S6 to S8: PAGEINFO and the two operands it points to -/

/-- The memory operands after S8. -/
structure InfoOperands where
  paPi : Nat
  /-- The PCMD, at `DS:TMP_PCMD`. -/
  pcmd : Operand
  /-- The output page, at `DS:TMP_SRCPGE`. -/
  out : Operand
  paPcmd : Nat
  paOut : Nat
  deriving DecidableEq, Repr

/-- S6 to S8, and the two refusals of the model that follow S8 (rules R92 to R94, R66, R67, R135). -/
def ewbInfoOperands (s : State) (r : RegOperands) : Except Stop InfoOperands := do
  let paPi ← s.resolve r.pi
  let tmpSrcpge := s.loadWord (paPi + s.cfg.pageInfo.srcpge)
  let tmpPcmd := s.loadWord (paPi + s.cfg.pageInfo.pcmd)
  gpUnless (s.loadWord (paPi + s.cfg.pageInfo.linaddr) == 0 && s.loadWord (paPi + s.cfg.pageInfo.secs) == 0)
  let pcmd := s.operand tmpPcmd
  let out := s.operand tmpSrcpge
  gpUnless (s.addrOk pcmd 128 && s.addrOk out 4096)
  gpUnless (aligned pcmd.la 128 && aligned out.la 4096)
  let paPcmd ← s.resolve pcmd
  let paOut ← s.resolve out
  require (!s.inEpc paPi && !s.inEpc paOut && !s.inEpc paPcmd) (.refusal .nonEpcOperandInEpc)
  require (regionsDisjoint paPi 32 paOut 4096 && regionsDisjoint paPi 32 paPcmd 128 &&
    regionsDisjoint paOut 4096 paPcmd 128) (.refusal .operandsOverlap)
  return { paPi := paPi, pcmd := pcmd, out := out, paPcmd := paPcmd, paOut := paOut }

/-! ### S9 and S10: concurrency -/

/-- The VM exit replaces the fault for a guest with the extensions enabled (rules R28, R123). -/
def State.conflictExits (s : State) : Bool := s.vmxCond && s.epcVirtExtensions

/-- S9 and S10 (rules R123, R125, R126). -/
def ewbConcurrency (s : State) (r : RegOperands) : Except Stop Unit := do
  require (!s.srcConflict)
    (if s.conflictExits then .vmExit r.src.la r.paSrc else .exception .generalProtection)
  gpUnless (!s.vaModified)
  gpUnless (!s.secsConflict r.paSrc && !s.trackingResourceInUse)

/-! ### S11 to S13: validity and type of the EPC operands -/

/-- What S13 finds the source page to be (rule R35's groups). -/
inductive SourceKind where
  /-- One of the five child types, with the page that is its SECS (rule R36). -/
  | child (secs : Nat)
  | secs
  | va
  deriving DecidableEq, Repr

/-- A child page, by the link to its SECS: the link must name a valid SECS page (rule R36). -/
def State.childKind (s : State) (link : Option Nat) : Except Stop SourceKind :=
  match link with
  | none => .error (.refusal .secsLinkBroken)
  | some p => if s.isValidSecs p then .ok (.child p) else .error (.refusal .secsLinkBroken)

/-- The kind of a page by its EPCM entry (rules R35, R36, R98). -/
def State.sourceKind (s : State) (e : EpcmEntry) : Except Stop SourceKind :=
  match e.pt with
  | .reg | .tcs | .trim | .ssFirst | .ssRest => s.childKind e.enclaveSecs
  | .secs => .ok .secs
  | .va => .ok .va
  | .other _ => .error (.refusal .pageTypeNotNamed)

/-- Blocking is tested for the child types only (rule R97). -/
def ewbBlockCheck (s : State) : SourceKind → Except Stop Unit
  | .child _ => gpUnless s.env.eblockCorrect
  | .secs => .ok ()
  | .va => .ok ()

/-- S11 to S13 (rules R95 to R98). -/
def ewbSourceKind (s : State) (r : RegOperands) : Except Stop SourceKind := do
  require (s.epcm r.paSrc).valid (s.ownPageFault r.src)
  require ((s.epcm r.paVa).valid && (s.epcm r.paVa).pt == .va) (s.ownPageFault r.va)
  let kind ← s.sourceKind (s.epcm r.paSrc)
  ewbBlockCheck s kind
  return kind

/-! ### All that precedes the commit point -/

/-- What the steps before the commit point establish. -/
structure EwbContext where
  regs : RegOperands
  info : InfoOperands
  kind : SourceKind
  deriving DecidableEq, Repr

/-- Everything before S14, in the order of rule R136: nothing is written. -/
def ewbChecks (s : State) : Except Stop EwbContext := do
  s.premises
  s.privileged
  let regs ← ewbRegOperands s
  let info ← ewbInfoOperands s regs
  ewbConcurrency s regs
  let kind ← ewbSourceKind s regs
  return { regs := regs, info := info, kind := kind }

/-! ### S15 to S17: is the page evictable, and whose is it -/

/-- The enclave id for the MAC header and the one for the PCMD (rules R102, R105, R106). -/
structure EnclaveIds where
  header : Word
  pcmd : Word
  deriving DecidableEq, Repr

/-- S15 to S17: the error code that ends the instruction, or the two ids (rules R100 to R106). -/
def ewbEvictable (s : State) (c : EwbContext) : Except Word EnclaveIds :=
  match c.kind with
  | .child secs =>
    if !(s.epcm c.regs.paSrc).blocked then .error s.cfg.codes.pageNotBlocked
    else if !s.env.trackingCorrect then .error s.cfg.codes.notTracked
    else .ok { header := s.secsEid secs, pcmd := s.secsEid secs }
  | .secs =>
    if s.hasChild (pageOf c.regs.paSrc) then .error s.cfg.codes.childPresent
    else if s.vmxCond && s.epcVirtExtensions && s.secsVirtChildCnt (pageOf c.regs.paSrc) != 0 then
      .error s.cfg.codes.childPresent
    else .ok { header := 0, pcmd := s.secsEid (pageOf c.regs.paSrc) }
  | .va => .ok { header := 0, pcmd := 0 }

/-! ### S18 to S23: encryption and output -/

/-- S18: the MAC header (rules R56, R107). -/
def ewbHeader (e : EpcmEntry) (eid : Word) : MacHeader where
  eid := eid
  linaddr := e.enclaveAddress
  pt := e.pt
  rwx := e.rwx
  pending := e.pending
  modified := e.modified
  pr := e.pr

/-- `FlagsWord` (rules R55, R110). -/
def flagsWord (cfg : Config) (e : EpcmEntry) : Nat :=
  e.rwx.toNat * 2 ^ cfg.flags.rwx + e.pending.toNat * 2 ^ cfg.flags.pending + e.modified.toNat * 2 ^ cfg.flags.modified +
    e.pr.toNat * 2 ^ cfg.flags.pr + (ptValue cfg e.pt).toNat * 2 ^ cfg.flags.pt

/-- S19: `TMP_VER`, a free value (rules R41, R108). -/
def State.version (s : State) : Word := Config.freeVersion s.drawCount

/-- S19: ciphertext and MAC of the source page (rules R109, R8: the counter is not truncated). -/
def ewbEncrypt (s : State) (c : EwbContext) (ids : EnclaveIds) : Vector Byte 4096 × Vector Byte s.cfg.pcmd.macSize :=
  Config.aesGcmEnc s.cfg.pcmd.macSize s.crBasePk (s.version.toNat * 2 ^ 32)
    (ewbHeader (s.epcm c.regs.paSrc) ids.header) 128 (s.mem.readPage c.regs.paSrc) 4096

/-- S19: the ciphertext to the output page (rule R109). -/
def ciphertextWrite (s : State) (c : EwbContext) (ids : EnclaveIds) : Write where
  address := c.info.paOut
  bytes := (ewbEncrypt s c ids).1.toList

/-- S19: the MAC to `PCMD.MAC` (rule R109). -/
def macWrite (s : State) (c : EwbContext) (ids : EnclaveIds) : Write where
  address := c.info.paPcmd + s.cfg.pcmd.mac
  bytes := (ewbEncrypt s c ids).2.toList

/-- S20: `PCMD.SECINFO` zeroed (rule R110). -/
def secinfoWrite (s : State) (c : EwbContext) : Write where
  address := c.info.paPcmd + s.cfg.pcmd.secinfo
  bytes := zeroBytes s.cfg.pcmd.secinfoSize

/-- S20: the FLAGS word of the zeroed SECINFO (rule R110). -/
def flagsWrite (s : State) (c : EwbContext) : Write where
  address := c.info.paPcmd + s.cfg.pcmd.secinfo + s.cfg.secinfoFlags
  bytes := leBytes 8 (flagsWord s.cfg (s.epcm c.regs.paSrc))

/-- S20: `PCMD.RESERVED` zeroed (rule R110). -/
def reservedWrite (s : State) (c : EwbContext) : Write where
  address := c.info.paPcmd + s.cfg.pcmd.reserved
  bytes := zeroBytes s.cfg.pcmd.reservedSize

/-- S20: the handle to `PCMD.ENCLAVEID` (rule R110). -/
def enclaveIdWrite (s : State) (c : EwbContext) (ids : EnclaveIds) : Write where
  address := c.info.paPcmd + s.cfg.pcmd.enclaveId
  bytes := leBytes 8 ids.pcmd.toNat

/-- The write of S21: `PAGEINFO.LINADDR` (rule R111). -/
def linaddrWrite (s : State) (c : EwbContext) : Write where
  address := c.info.paPi + s.cfg.pageInfo.linaddr
  bytes := leBytes 8 (s.epcm c.regs.paSrc).enclaveAddress.toNat

/-- The write of S22: the version to the VA slot (rule R112). -/
def slotWrite (s : State) (c : EwbContext) : Write where
  address := c.regs.paVa
  bytes := leBytes 8 s.version.toNat

/-- The write of S23: the evicted page's content, a free value (rule R38). -/
def contentWrite (s : State) (c : EwbContext) : Write where
  address := c.regs.paSrc
  bytes := (Config.freePageContent s.drawCount).toList

/-- The writes of S19 to S21, to regular memory, in the order of the Operation. -/
def outputWrites (s : State) (c : EwbContext) (ids : EnclaveIds) : List Write :=
  [ciphertextWrite s c ids, macWrite s c ids, secinfoWrite s c, flagsWrite s c, reservedWrite s c,
    enclaveIdWrite s c ids, linaddrWrite s c]

/-- Every write of S19 to S23, in the order of the Operation. -/
def evictWrites (s : State) (c : EwbContext) (ids : EnclaveIds) : List Write :=
  outputWrites s c ids ++ [slotWrite s c, contentWrite s c]

/-- S22: the slot was occupied (rules R39, R112). The slot is in the EPC and the writes of S19 to S21 are not
(rule R66), so it is read from memory as it was before them (log 20; `slot_read_after_output`). -/
def slotOccupied (s : State) (c : EwbContext) : Bool := s.loadWord c.regs.paVa != 0

/-- The code `RAX` and the flag `CF` report of the slot (rule R112). -/
def State.reportSlot (s : State) (occupied : Bool) : State :=
  if occupied then (s.setReg .rax s.cfg.codes.vaSlotOccupied).setFlag .cf true else s

/-- S14: the first write to architectural state (rule R99). -/
def State.commitPoint (s : State) : State := s.clearStatusFlags.setReg .rax 0

/-- An error-code exit: `RAX` and `ZF`, then completion; nothing else is written (rules R100 to R104, R114). -/
def ewbErrorExit (s : State) (code : Word) : State := ((s.commitPoint.setReg .rax code).setFlag .zf true).complete

/-- S18 to S23 and completion (rules R107 to R114). -/
def ewbEvict (s : State) (c : EwbContext) (ids : EnclaveIds) : State :=
  (((s.commitPoint.store (evictWrites s c ids)).reportSlot (slotOccupied s c)).invalidate
    (pageOf c.regs.paSrc)).complete

/-- S14 to ERROR_EXIT: from the commit point the instruction always completes (rules R99, R114). -/
def ewbCommit (s : State) (c : EwbContext) : State :=
  match ewbEvictable s c with
  | .error code => ewbErrorExit s code
  | .ok ids => ewbEvict s c ids

/-- `ENCLS[EWB]` (rule R82). DESIGN CHOICE: no monitor makes `ENCLS` itself exit, which rule R145 says is not in the
source; the one VM exit is that of S9 (log 44). -/
def execEnclsEwb (s : State) : Host.Outcome State Fault Refusal :=
  match ewbChecks s with
  | .error stop => stopped s stop
  | .ok c => .next (ewbCommit s c)

end Sys2Proof.Machine
end

