-- ==== Sys2Proof/Machine/Fetch.lean ====
section
/-! DEFINITION. Fetching the bytes of an instruction at RIP, and placing one there from outside the machine
(rules R57, R70, R73; logs 18, 19, 40). -/

namespace Sys2Proof.Machine

/-- Fetches one instruction byte: translated for reading, and refused where an EWB of this run wrote it (rule R70). -/
def State.fetchByte (s : State) (la : Word) : Except Refusal Byte :=
  match s.translate la .read with
  | .error _ => .error (.fetchNotMapped la)
  | .ok pa => if s.writtenByEwb pa then .error (.fetchFromEwbWrite pa) else .ok (s.mem.read pa)

/-- Fetches `n` bytes in increasing address order (rule R57). -/
def State.fetchBytes (s : State) (la : Word) : (n : Nat) → Except Refusal (List Byte)
  | 0 => .ok []
  | n + 1 =>
    match s.fetchByte la with
    | .error r => .error r
    | .ok b =>
      match State.fetchBytes s (la + 1) n with
      | .error r => .error r
      | .ok bs => .ok (b :: bs)

/-- The `ILEN` bytes at RIP (rules R20, R73). -/
def State.fetch (s : State) : Except Refusal (List Byte) := s.fetchBytes s.rip s.cfg.ilen

/-- Makes a linear address readable: an identity mapping for reading, where paging has none (log 40). -/
def State.mapForFetch (s : State) (la : Word) : State :=
  match s.translate la .read with
  | .ok _ => s
  | .error _ =>
    let page := la.toNat / 4096
    let entry : PageMapping := { page := page, onRead := .frame page, onWrite := s.paging.answer page .write }
    { s with paging := { s.paging with pages := entry :: s.paging.pages } }

/-- Puts one instruction byte where the fetch reads it (log 40). -/
def State.placeByte (s : State) (la : Word) (b : Byte) : State :=
  let s := s.mapForFetch la
  match s.translate la .read with
  | .error _ => s
  | .ok pa =>
    { s with
      mem := s.mem.writeBytes pa [b]
      ewbWritten := s.ewbWritten.filter fun r => !(decide (r.1 ≤ pa) && decide (pa < r.1 + r.2)) }

/-- Puts instruction bytes where the fetch reads them, from a linear address on (log 40). -/
def State.placeBytes (s : State) (la : Word) : List Byte → State
  | [] => s
  | b :: bs => State.placeBytes (s.placeByte la b) (la + 1) bs

/-- `EAX <- selector`, the upper half of RAX as it was (log 40). -/
def State.setEax (s : State) (selector : BitVec 32) : State :=
  s.setReg .rax ((s.regs.rax >>> 32 <<< 32) ||| selector.setWidth 64)

/-- The bytes of `ENCLS` at RIP and the selector in EAX, so that the next step runs that leaf (log 40). -/
def State.placeLeaf (s : State) (selector : BitVec 32) : State :=
  (s.placeBytes s.rip s.cfg.enclsBytes).setEax selector

end Sys2Proof.Machine
end

