-- ==== Sys2Proof/Machine/Step.lean ====
section
/-! DEFINITION. One step: fetch at RIP, decode by EAX, execute (rules R20, R73, R74, R78). -/

namespace Sys2Proof.Machine

/-- The refusal of bytes and a selector the decoder does not take (rules R75, R78). -/
def decodeRefusal : DecodeError → Refusal
  | .notEncls => .notEncls
  | .otherLeaf selector => .otherLeaf selector

/-- One step of the logical processor (rule R11 item 1). -/
def step (s : State) : Host.Outcome State Fault Refusal :=
  match s.fetch with
  | .error r => .refused r
  | .ok bytes =>
    match decode s.cfg bytes s.eax with
    | .error e => .refused (decodeRefusal e)
    | .ok (i, _) => exec i s

/-- The state with the instruction of a table word placed where the next step fetches it: `ENCLS_BYTES` at RIP and
the word's selector in EAX (log 40). -/
def State.withFetchWord (s : State) (nbits w : Nat) : State := s.placeLeaf (BitVec.ofNat 32 (w % 2 ^ nbits))

end Sys2Proof.Machine
end

