-- ==== Sys2Proof/Machine/Environment.lean ====
section
/-! DEFINITION. The environment step of rule R153: what stands for instructions outside this spec between two `ENCLS`.
It is no step of the machine; `step` never calls it (log 36). -/

namespace Sys2Proof.Machine

/-- The fields of an EPCM entry (rule R34). -/
inductive EpcmFieldName where
  | valid
  | pt
  | blocked
  | enclaveAddress
  | rwx
  | pending
  | modified
  | pr
  | enclaveSecs
  deriving DecidableEq, Repr

/-- A named EPCM field with a value for it (rules R34, R153). -/
inductive EpcmField where
  | valid (v : Bool)
  | pt (v : PageType)
  | blocked (v : Bool)
  | enclaveAddress (v : Word)
  | rwx (v : BitVec 3)
  | pending (v : Bool)
  | modified (v : Bool)
  | pr (v : Bool)
  | enclaveSecs (v : Option Nat)
  deriving DecidableEq, Repr

/-- Which field it is. -/
def EpcmField.name : EpcmField → EpcmFieldName
  | .valid _ => .valid
  | .pt _ => .pt
  | .blocked _ => .blocked
  | .enclaveAddress _ => .enclaveAddress
  | .rwx _ => .rwx
  | .pending _ => .pending
  | .modified _ => .modified
  | .pr _ => .pr
  | .enclaveSecs _ => .enclaveSecs

/-- A named field of an entry, with the value it holds. -/
def EpcmEntry.field (e : EpcmEntry) : EpcmFieldName → EpcmField
  | .valid => .valid e.valid
  | .pt => .pt e.pt
  | .blocked => .blocked e.blocked
  | .enclaveAddress => .enclaveAddress e.enclaveAddress
  | .rwx => .rwx e.rwx
  | .pending => .pending e.pending
  | .modified => .modified e.modified
  | .pr => .pr e.pr
  | .enclaveSecs => .enclaveSecs e.enclaveSecs

/-- An entry with one named field written. -/
def EpcmEntry.setField (e : EpcmEntry) : EpcmField → EpcmEntry
  | .valid v => { e with valid := v }
  | .pt v => { e with pt := v }
  | .blocked v => { e with blocked := v }
  | .enclaveAddress v => { e with enclaveAddress := v }
  | .rwx v => { e with rwx := v }
  | .pending v => { e with pending := v }
  | .modified v => { e with modified := v }
  | .pr v => { e with pr := v }
  | .enclaveSecs v => { e with enclaveSecs := v }

/-- One thing an environment step may write (rule R153). -/
inductive EnvWrite where
  | register (r : Reg) (v : Word)
  | rip (v : Word)
  /-- Bytes of regular memory. -/
  | bytes (address : Nat) (content : List Byte)
  /-- A named field of the EPCM entry of an EPC page, where the step stands for another SGX instruction. -/
  | epcmField (page : Nat) (field : EpcmField)
  deriving DecidableEq, Repr

/-- No byte of the run from an address on lies in the EPC. -/
def State.regularRun (s : State) (a : Nat) (n : Nat) : Bool := (List.range n).all fun i => !s.inEpc (a + i)

/-- Performs one environment write; bytes that are not all regular memory are not written (rule R153). -/
def State.envWrite (s : State) : EnvWrite → State
  | .register r v => s.setReg r v
  | .rip v => { s with rip := v }
  | .bytes a bs => if s.regularRun a bs.length then { s with mem := s.mem.writeBytes a bs } else s
  | .epcmField page f =>
    { s with epc := s.epc.map fun p => if p.1 = page then (p.1, { p.2 with entry := p.2.entry.setField f }) else p }

/-- An environment step: it writes only what it names (rule R153). -/
def State.envStep (s : State) (ws : List EnvWrite) : State := ws.foldl State.envWrite s

end Sys2Proof.Machine
end

