-- ==== Sys2Proof/Safety.lean ====
section
/-! DEFINITION. What claims about EWB are stated in: the start premises, the conditions each group of steps demands, in
the spec's words and not by running the checks, and the invariant every step keeps. -/

namespace Sys2Proof.Machine

/-- The premises of rules R144 and R149. What `P_pt` and `P_secs_link` ask of the page `RCX` names is not among them: S13
tests it (`SourceReady`; log 38). -/
structure Admitted (s : State) : Prop where
  /-- `P_no_fault`. -/
  noExit : s.vmExited = false
  /-- `P_mode`. -/
  mode : s.mode = .mode64 ∨ s.mode = .modeProt
  paging : s.pagingOn = true
  sgx1Present : s.sgx1Present = true
  sgx1Enabled : s.sgx1Enabled = true
  outside : s.insideEnclave = false
  /-- `P_codes`. -/
  parameters : s.cfg.ok = true
  /-- `P_rip`. -/
  rip64 : s.mode = .mode64 → s.rip.toNat + s.cfg.ilen < 2 ^ 64
  ripProt : s.mode = .modeProt → s.rip.toNat + s.cfg.ilen < 2 ^ 32
  /-- `P_epcm_total`. -/
  epcOrdered : s.epc.Pairwise fun a b => a.1 < b.1
  epcAligned : ∀ e ∈ s.epc, e.1 % 4096 = 0
  /-- `P_pt`, of every page but the source page. -/
  types : ∀ e ∈ s.epc, s.sourcePage? ≠ some e.1 → e.2.entry.valid = true → namedType e.2.entry.pt = true
  /-- `P_secs_link`, of every page but the source page. -/
  links : ∀ e ∈ s.epc, s.sourcePage? ≠ some e.1 → e.2.entry.valid = true → isChildType e.2.entry.pt = true →
    ∃ p, e.2.entry.enclaveSecs = some p ∧ s.isValidSecs p = true

/-- The conditions of S1 to S5 on the register operands (rules R87 to R91, R46, R47). -/
structure RegsReady (s : State) (r : RegOperands) : Prop where
  pi : r.pi = s.operand s.regs.rbx
  src : r.src = s.operand s.regs.rcx
  va : r.va = s.operand s.regs.rdx
  piAddr : s.addrOk r.pi 32 = true
  srcAddr : s.addrOk r.src 4096 = true
  piAligned : r.pi.la.toNat % 32 = 0
  srcAligned : r.src.la.toNat % 4096 = 0
  srcPhysical : s.translate r.src.la .write = .ok r.paSrc
  srcInEpc : s.inEpc r.paSrc = true
  vaAddr : s.addrOk r.va 8 = true
  vaAligned : r.va.la.toNat % 8 = 0
  vaPhysical : s.translate r.va.la .write = .ok r.paVa
  vaInEpc : s.inEpc r.paVa = true
  differentPages : pageOf r.paSrc ≠ pageOf r.paVa

/-- The conditions of S6 to S8 on PAGEINFO, the output page and the PCMD (rules R92 to R94, R66, R67). -/
structure InfoReady (s : State) (r : RegOperands) (m : InfoOperands) : Prop where
  piPhysical : s.translate r.pi.la .write = .ok m.paPi
  linaddrZero : s.loadWord (m.paPi + s.cfg.pageInfo.linaddr) = 0
  secsZero : s.loadWord (m.paPi + s.cfg.pageInfo.secs) = 0
  pcmd : m.pcmd = s.operand (s.loadWord (m.paPi + s.cfg.pageInfo.pcmd))
  out : m.out = s.operand (s.loadWord (m.paPi + s.cfg.pageInfo.srcpge))
  pcmdAddr : s.addrOk m.pcmd 128 = true
  outAddr : s.addrOk m.out 4096 = true
  pcmdAligned : m.pcmd.la.toNat % 128 = 0
  outAligned : m.out.la.toNat % 4096 = 0
  pcmdPhysical : s.translate m.pcmd.la .write = .ok m.paPcmd
  outPhysical : s.translate m.out.la .write = .ok m.paOut
  piRegular : s.inEpc m.paPi = false
  outRegular : s.inEpc m.paOut = false
  pcmdRegular : s.inEpc m.paPcmd = false
  piOutApart : m.paPi + 32 ≤ m.paOut ∨ m.paOut + 4096 ≤ m.paPi
  piPcmdApart : m.paPi + 32 ≤ m.paPcmd ∨ m.paPcmd + 128 ≤ m.paPi
  outPcmdApart : m.paOut + 4096 ≤ m.paPcmd ∨ m.paPcmd + 128 ≤ m.paOut

/-- No conflict at S9 and S10 (rules R123, R125, R126). -/
structure Quiet (s : State) (r : RegOperands) : Prop where
  src : s.srcConflict = false
  va : s.vaModified = false
  secs : s.secsConflict r.paSrc = false
  tracking : s.trackingResourceInUse = false

/-- What the source page's EPCM entry must say for the page to be of a kind (rules R35, R36). -/
def KindIs (s : State) (e : EpcmEntry) : SourceKind → Prop
  | .child p => isChildType e.pt = true ∧ e.enclaveSecs = some p ∧ s.isValidSecs p = true
  | .secs => e.pt = .secs
  | .va => e.pt = .va

/-- The conditions of S11 to S13 (rules R95 to R97). -/
structure SourceReady (s : State) (r : RegOperands) (k : SourceKind) : Prop where
  srcValid : (s.epcm r.paSrc).valid = true
  vaValid : (s.epcm r.paVa).valid = true
  vaType : (s.epcm r.paVa).pt = .va
  kind : KindIs s (s.epcm r.paSrc) k
  blocking : ∀ p, k = .child p → s.env.eblockCorrect = true

/-- All that must hold for EWB to reach its commit point (rule R136: after S13 no fault is possible). -/
structure EwbReady (s : State) (c : EwbContext) : Prop where
  admitted : Admitted s
  cpl : s.cpl = 0
  regs : RegsReady s c.regs
  info : InfoReady s c.regs c.info
  quiet : Quiet s c.regs
  source : SourceReady s c.regs c.kind

/-- The source page may be evicted, with these ids (rules R100 to R106). -/
def Evictable (s : State) (c : EwbContext) (ids : EnclaveIds) : Prop :=
  match c.kind with
  | .child p =>
    (s.epcm c.regs.paSrc).blocked = true ∧ s.env.trackingCorrect = true ∧
      ids = { header := s.secsEid p, pcmd := s.secsEid p }
  | .secs =>
    s.hasChild (pageOf c.regs.paSrc) = false ∧
      (s.vmxCond = true → s.epcVirtExtensions = true → s.secsVirtChildCnt (pageOf c.regs.paSrc) = 0) ∧
      ids = { header := 0, pcmd := s.secsEid (pageOf c.regs.paSrc) }
  | .va => ids = { header := 0, pcmd := 0 }

/-- What EWB writes on no outcome (rules R18, R19): the parameters, the mode and its conditions, whether other agents
exist, RBX, RCX, RDX, CPL, DS, paging, the virtualisation state and the key. -/
structure Unchanged (s t : State) : Prop where
  cfg : t.cfg = s.cfg
  mode : t.mode = s.mode
  pagingOn : t.pagingOn = s.pagingOn
  sgx1Present : t.sgx1Present = s.sgx1Present
  sgx1Enabled : t.sgx1Enabled = s.sgx1Enabled
  insideEnclave : t.insideEnclave = s.insideEnclave
  otherAgents : t.otherAgents = s.otherAgents
  rbx : t.regs.rbx = s.regs.rbx
  rcx : t.regs.rcx = s.regs.rcx
  rdx : t.regs.rdx = s.regs.rdx
  cpl : t.cpl = s.cpl
  ds : t.ds = s.ds
  paging : t.paging = s.paging
  vmxCond : t.vmxCond = s.vmxCond
  epcVirtExtensions : t.epcVirtExtensions = s.epcVirtExtensions
  crBasePk : t.crBasePk = s.crBasePk

/-- The `#GP(0)` of this execution (rule R131). -/
def gpFault (s : State) : Fault :=
  .generalProtection { vector := s.cfg.vecGp, errorCode := some 0, address := none, rip := s.rip }

/-- The `#PF` of this execution at a linear address (rule R131). -/
def pfFault (s : State) (la : Word) (errorCode : Nat) : Fault :=
  .pageFault { vector := s.cfg.vecPf, errorCode := some errorCode, address := some la, rip := s.rip }

/-- S1 passes: PAGEINFO and the source page pass the limit or canonical test and are aligned (rules R87, R135). -/
structure S1Passes (s : State) : Prop where
  admitted : Admitted s
  cpl : s.cpl = 0
  piAddr : s.addrOk (s.operand s.regs.rbx) 32 = true
  srcAddr : s.addrOk (s.operand s.regs.rcx) 4096 = true
  piAligned : (s.operand s.regs.rbx).la.toNat % 32 = 0
  srcAligned : (s.operand s.regs.rcx).la.toNat % 4096 = 0

/-- S2 passes: the source page resolves within the EPC (rule R88). -/
structure S2Passes (s : State) (paSrc : Nat) : Prop where
  s1 : S1Passes s
  srcPhysical : s.translate (s.operand s.regs.rcx).la .write = .ok paSrc
  srcInEpc : s.inEpc paSrc = true

/-- S3 passes: the slot passes the limit or canonical test and is aligned (rules R89, R135). -/
structure S3Passes (s : State) (paSrc : Nat) : Prop where
  s2 : S2Passes s paSrc
  vaAddr : s.addrOk (s.operand s.regs.rdx) 8 = true
  vaAligned : (s.operand s.regs.rdx).la.toNat % 8 = 0

/-- S4 passes: the slot resolves within the EPC (rule R90). -/
structure S4Passes (s : State) (paSrc paVa : Nat) : Prop where
  s3 : S3Passes s paSrc
  vaPhysical : s.translate (s.operand s.regs.rdx).la .write = .ok paVa
  vaInEpc : s.inEpc paVa = true

/-- S5 passes: everything about the register operands is in order (rule R91). -/
structure S5Passes (s : State) (r : RegOperands) : Prop where
  admitted : Admitted s
  cpl : s.cpl = 0
  regs : RegsReady s r

/-- S7 passes: PAGEINFO translates for writing and its LINADDR and SECS are zero (rules R92, R93). -/
structure S7Passes (s : State) (r : RegOperands) (paPi : Nat) : Prop where
  s5 : S5Passes s r
  piPhysical : s.translate r.pi.la .write = .ok paPi
  linaddrZero : s.mem.readLe (paPi + s.cfg.pageInfo.linaddr) 8 = 0
  secsZero : s.mem.readLe (paPi + s.cfg.pageInfo.secs) 8 = 0

/-- The PCMD operand PAGEINFO points to (rule R92). -/
def pcmdOperand (s : State) (paPi : Nat) : Operand := s.operand (s.loadWord (paPi + s.cfg.pageInfo.pcmd))

/-- The output-page operand PAGEINFO points to (rule R92). -/
def outOperand (s : State) (paPi : Nat) : Operand := s.operand (s.loadWord (paPi + s.cfg.pageInfo.srcpge))

/-- The tests of S8 on the two operands PAGEINFO points to (rules R94, R135). -/
structure S8AddressesPass (s : State) (r : RegOperands) (paPi : Nat) : Prop where
  s7 : S7Passes s r paPi
  pcmdAddr : s.addrOk (pcmdOperand s paPi) 128 = true
  outAddr : s.addrOk (outOperand s paPi) 4096 = true
  pcmdAligned : (pcmdOperand s paPi).la.toNat % 128 = 0
  outAligned : (outOperand s paPi).la.toNat % 4096 = 0

/-- S8 passes, and so do the model's tests of rules R66 and R67. -/
structure S8Passes (s : State) (r : RegOperands) (m : InfoOperands) : Prop where
  s5 : S5Passes s r
  info : InfoReady s r m

/-- S11 passes: no conflict, and the source page's entry is valid (rules R123, R125, R126, R95). -/
structure S11Passes (s : State) (r : RegOperands) (m : InfoOperands) : Prop where
  s8 : S8Passes s r m
  quiet : Quiet s r
  srcValid : (s.epcm r.paSrc).valid = true

/-- S12 passes: the slot lies in a valid VA page (rule R96). -/
structure S12Passes (s : State) (r : RegOperands) (m : InfoOperands) : Prop where
  s11 : S11Passes s r m
  vaValid : (s.epcm r.paVa).valid = true
  vaType : (s.epcm r.paVa).pt = .va

/-- Every bit of RFLAGS that is none of the six status flags is as it was (rules R19, R22). -/
def OtherFlagBitsKept (s t : State) : Prop :=
  ∀ i, (∀ f, i ≠ flagPosition f) → t.rflags.getLsbD i = s.rflags.getLsbD i

/-- What an error-code exit leaves (rules R100 to R104, R114, R117): the code in RAX, ZF set and the other five flags
clear, RIP past the instruction, and no memory, EPCM entry or VMCS field changed. -/
structure ErrorExit (s t : State) (code : Word) : Prop where
  rax : t.regs.rax = code
  zf : t.flag .zf = true
  others : ∀ f, f ≠ .zf → t.flag f = false
  otherBits : OtherFlagBitsKept s t
  rip : t.rip = s.rip + BitVec.ofNat 64 s.cfg.ilen
  mem : t.mem = s.mem
  epc : t.epc = s.epc
  vmcs : t.vmcs = s.vmcs
  noExit : t.vmExited = false
  unchanged : Unchanged s t

/-- What an environment step leaves as it is, whatever it names (rule R153). -/
structure EnvKept (s t : State) : Prop where
  cfg : t.cfg = s.cfg
  mode : t.mode = s.mode
  pagingOn : t.pagingOn = s.pagingOn
  sgx1Present : t.sgx1Present = s.sgx1Present
  sgx1Enabled : t.sgx1Enabled = s.sgx1Enabled
  insideEnclave : t.insideEnclave = s.insideEnclave
  rflags : t.rflags = s.rflags
  cpl : t.cpl = s.cpl
  ds : t.ds = s.ds
  paging : t.paging = s.paging
  vmxCond : t.vmxCond = s.vmxCond
  epcVirtExtensions : t.epcVirtExtensions = s.epcVirtExtensions
  vmcs : t.vmcs = s.vmcs
  crBasePk : t.crBasePk = s.crBasePk
  otherAgents : t.otherAgents = s.otherAgents
  env : t.env = s.env
  drawCount : t.drawCount = s.drawCount
  vmExited : t.vmExited = s.vmExited
  ewbWritten : t.ewbWritten = s.ewbWritten

/-- What every step keeps: memory in its canonical form; one EPCM entry per EPC page, each page 4096-aligned
(`P_epcm_total`); valid entries of named types (`P_pt`); valid child entries linked to a valid SECS page
(`P_secs_link`) (rule R149). -/
structure State.Inv (s : State) : Prop where
  memory : s.mem.wf
  epcOrdered : s.epc.Pairwise fun a b => a.1 < b.1
  epcAligned : ∀ e ∈ s.epc, e.1 % 4096 = 0
  types : ∀ e ∈ s.epc, e.2.entry.valid = true → namedType e.2.entry.pt = true
  links : ∀ e ∈ s.epc, e.2.entry.valid = true → isChildType e.2.entry.pt = true →
    ∃ p, e.2.entry.enclaveSecs = some p ∧ s.isValidSecs p = true

end Sys2Proof.Machine
end

