-- ==== Sys2Proof/Certificates/Slice0/Obligations.lean ====
section
/-! DEFINITION. The statements for the provers. -/

open Sys2Proof Sys2Proof.Machine

/-! ### Encoding and the step -/

/-- Decoding an encoded instruction gives it back, whatever follows it and whatever the parameters (rules R72 to R77).
The bare bytes of ENCLS and the whole 32-bit selector are decision D7 of the spec (log 1). -/
def Obligations.DecodeInvertsEncode : Prop :=
  ∀ (cfg : Config) (i : Instr) (rest : List Byte),
    decode cfg ((encode cfg i).bytes ++ rest) (encode cfg i).selector = .ok (i, rest)

/-- Whatever decodes is the encoding of what it decodes to: bare bytes, whole selector (rules R74, R75). That no other
form is admitted is decision D7 of the spec (log 1). -/
def Obligations.EncodeInvertsDecode : Prop :=
  ∀ (cfg : Config) (stream : List Byte) (selector : BitVec 32) (i : Instr) (rest : List Byte),
    decode cfg stream selector = .ok (i, rest) →
      stream = (encode cfg i).bytes ++ rest ∧ selector = (encode cfg i).selector

/-- A few words written out: `EAX = 0x0B` is EWB, `0x0C` and `0x10B` are not; the bytes are `0F 01 CF`, and a byte
before them is no `ENCLS` (rules R73, R74, R78; the bytes are general knowledge GK1, log 1). -/
def Obligations.TableWordsDecode : Prop :=
  decodeTableWord 32 0x0000000B = some .enclsEwb ∧ decodeTableWord 32 0x0000000C = none ∧
    decodeTableWord 32 0x0000010B = none ∧
    decode defaultConfig [0x0F, 0x01, 0xCF, 0x90] 0x0000000B = .ok (.enclsEwb, [0x90]) ∧
    decode defaultConfig [0x66, 0x0F, 0x01, 0xCF] 0x0000000B = .error .notEncls

/-- A step runs the decoded instruction: this machine's step adds nothing around exec. Fetching at RIP is log 18. -/
def Obligations.StepRunsDecodedInstruction : Prop :=
  ∀ (s : State) (bytes : List Byte) (i : Instr) (rest : List Byte),
    s.fetch = .ok bytes → decode s.cfg bytes s.eax = .ok (i, rest) → step s = exec i s

/-- The bytes at RIP in increasing address order are what the fetch gives (rules R20, R57, R73). That RIP is
translated as a linear address for reading is log 18. -/
def Obligations.FetchReadsBytesAtRip : Prop :=
  ∀ (s : State) (bytes : List Byte), bytes.length = s.cfg.ilen →
    (∀ (i : Nat) (hi : i < bytes.length), ∃ pa, s.translate (s.rip + BitVec.ofNat 64 i) .read = .ok pa ∧
      s.writtenByEwb pa = false ∧ s.mem.read pa = bytes[i]) →
    s.fetch = .ok bytes

/-- `ENCLS` at RIP: EWB runs exactly when bits 31:0 of RAX are `0x0B`, and any other selector is refused by name; bits
63:32 of RAX take no part (rules R74, R78). That EAX is bits 31:0 of RAX, compared whole, and the refusal are
decisions D3 and D7 of the spec (log 1). -/
def Obligations.LeafSelectedByEax : Prop :=
  ∀ s : State, s.fetch = .ok s.cfg.enclsBytes →
    (s.regs.rax.setWidth 32 = (0x0000000B : BitVec 32) → step s = exec .enclsEwb s) ∧
    (s.regs.rax.setWidth 32 ≠ (0x0000000B : BitVec 32) →
      step s = .refused (.otherLeaf (s.regs.rax.setWidth 32)))

/-- Bytes that are not the bare `ENCLS_BYTES`, a prefixed form among them, are refused (rule R75). The refusal is
decision D7 of the spec. -/
def Obligations.OnlyBareEnclsAdmitted : Prop :=
  ∀ (s : State) (bytes : List Byte), s.fetch = .ok bytes → bytes ≠ s.cfg.enclsBytes → step s = .refused .notEncls

/-- An instruction with a byte that an EWB of the same run wrote is not fetched; an eviction records every byte it
writes; and no step and no environment step takes a byte out of the record, so that it holds for the whole run (rule
R70). The refusal is decision D41 of the spec (log 19). -/
def Obligations.BytesEwbWroteAreNotFetched : Prop :=
  (∀ (s : State) (i pa : Nat), i < s.cfg.ilen → s.translate (s.rip + BitVec.ofNat 64 i) .read = .ok pa →
    s.writtenByEwb pa = true → ∃ r, step s = .refused r) ∧
  (∀ (s t : State) (c : EwbContext) (ids : EnclaveIds), EwbReady s c → Evictable s c ids → exec .enclsEwb s = .next t →
    ∀ x, (∃ w ∈ evictWrites s c ids, w.covers x) → t.writtenByEwb x = true) ∧
  (∀ s t : State, step s = .next t → ∀ x, s.writtenByEwb x = true → t.writtenByEwb x = true) ∧
  (∀ (s : State) (ws : List EnvWrite) (x : Nat), s.writtenByEwb x = true → (s.envStep ws).writtenByEwb x = true)

/-! ### Completion -/

/-- Once everything before the commit point is in order, EWB completes: RIP advances by `ILEN`, PF, AF, OF and SF are
0, no VM exit is recorded, and its draws are used up: the next execution has draws of its own (rules R99, R114, R117,
R20, R41, R42). The advance of RIP is decision D4 of the spec (log 10), one draw of TMP_VER per execution decision D15
(log 2), the redraw of the predicates log 3. -/
def Obligations.EwbCompletesWhenReady : Prop :=
  ∀ (s : State) (c : EwbContext), EwbReady s c →
    ∃ t, exec .enclsEwb s = .next t ∧ t.rip = s.rip + BitVec.ofNat 64 s.cfg.ilen ∧ t.flag .pf = false ∧
      t.flag .af = false ∧ t.flag .of = false ∧ t.flag .sf = false ∧ t.vmExited = false ∧
      t.drawCount = s.drawCount + 1 ∧ t.env = Config.freeEnvironment (s.drawCount + 1)

/-- A child page with BLOCKED = 0 gives `SGX_PAGE_NOT_BLOCKED`; a SECS or VA page is evicted whatever its BLOCKED bit
(rules R100, R114). The second clause is the spec's own inference from the position of the test. That RIP advances is
decision D4 of the spec (log 10), that nothing else changes decision D5 (logs 29, 11). -/
def Obligations.NotBlockedExit : Prop :=
  (∀ (s : State) (c : EwbContext) (p : Nat), EwbReady s c → c.kind = .child p →
    (s.epcm c.regs.paSrc).blocked = false →
      ∃ t, exec .enclsEwb s = .next t ∧ ErrorExit s t s.cfg.codes.pageNotBlocked) ∧
  (∀ (s : State) (c : EwbContext) (ids : EnclaveIds), EwbReady s c → Evictable s c ids → (∀ p, c.kind ≠ .child p) →
    ∃ t, exec .enclsEwb s = .next t ∧ (t.epcm c.regs.paSrc).valid = false)

/-- A blocked child page whose tracking is not correct gives `SGX_NOT_TRACKED`; one that is neither blocked nor tracked
gives `SGX_PAGE_NOT_BLOCKED` (rules R101, R114). That RIP advances is decision D4 of the spec (log 10), that nothing
else changes decision D5 (logs 29, 11). -/
def Obligations.NotTrackedExit : Prop :=
  ∀ (s : State) (c : EwbContext) (p : Nat), EwbReady s c → c.kind = .child p → s.env.trackingCorrect = false →
    ∃ t, exec .enclsEwb s = .next t ∧
      ErrorExit s t (if (s.epcm c.regs.paSrc).blocked then s.cfg.codes.notTracked else s.cfg.codes.pageNotBlocked)

/-- A SECS page with a child page gives `SGX_CHILD_PRESENT` (rules R103, R114). What counts as a child page is decision
D20 of the spec (log 26), that RIP advances decision D4 (log 10), that nothing else changes decision D5 (logs 29, 11). -/
def Obligations.ChildPresentExit : Prop :=
  ∀ (s : State) (c : EwbContext), EwbReady s c → c.kind = .secs → s.hasChild (pageOf c.regs.paSrc) = true →
    ∃ t, exec .enclsEwb s = .next t ∧ ErrorExit s t s.cfg.codes.childPresent

/-- A SECS page with no child page: with both virtualisation conditions a non-zero VIRTCHILDCNT gives
`SGX_CHILD_PRESENT`; without either of them VIRTCHILDCNT is not examined and the page is evicted (rule R104). HasChild
is decision D20 (log 26); VMX_COND is an uninterpreted Boolean, decision D22 (log 27). In the first clause, that RIP
advances is decision D4 (log 10), that nothing else changes decision D5 (logs 29, 11). -/
def Obligations.VirtualChildExit : Prop :=
  ∀ (s : State) (c : EwbContext), EwbReady s c → c.kind = .secs → s.hasChild (pageOf c.regs.paSrc) = false →
    (s.vmxCond = true → s.epcVirtExtensions = true → s.secsVirtChildCnt (pageOf c.regs.paSrc) ≠ 0 →
      ∃ t, exec .enclsEwb s = .next t ∧ ErrorExit s t s.cfg.codes.childPresent) ∧
    (s.vmxCond = false ∨ s.epcVirtExtensions = false →
      ∃ t, exec .enclsEwb s = .next t ∧ (t.epcm c.regs.paSrc).valid = false ∧ t.flag .zf = false)

/-- The slot: occupied gives `SGX_VA_SLOT_OCCUPIED` and CF, empty gives RAX 0 and CF 0; in both cases ZF is 0, the
slot then holds the version and the page is invalidated (rule R112; TMP_VER is a free value, decision D15, log 2). -/
def Obligations.SlotReportedAndWritten : Prop :=
  ∀ (s : State) (c : EwbContext) (ids : EnclaveIds), EwbReady s c → Evictable s c ids →
    ∃ t, exec .enclsEwb s = .next t ∧
      (s.mem.readLe c.regs.paVa 8 ≠ 0 → t.regs.rax = s.cfg.codes.vaSlotOccupied ∧ t.flag .cf = true) ∧
      (s.mem.readLe c.regs.paVa 8 = 0 → t.regs.rax = 0 ∧ t.flag .cf = false) ∧
      t.flag .zf = false ∧
      t.mem.readLe c.regs.paVa 8 = (Config.freeVersion s.drawCount).toNat ∧
      (t.epcm c.regs.paSrc).valid = false

/-- The output page holds the first result of `AES_GCM_ENC` and `PCMD.MAC` the second, of the key, the counter
`TMP_VER << 32` without truncation, the header copied from the source page's EPCM entry, 128, the page and 4096 (rules
R107, R109). The function is opaque (D16, log 6), TMP_VER a free value (D15, log 2), the shift unbounded (D36, log
42). -/
def Obligations.CiphertextAndMacWritten : Prop :=
  ∀ (s : State) (c : EwbContext) (ids : EnclaveIds), EwbReady s c → Evictable s c ids →
    let e := s.epcm c.regs.paSrc
    let result := Config.aesGcmEnc s.cfg.pcmd.macSize s.crBasePk ((Config.freeVersion s.drawCount).toNat * 2 ^ 32)
      { eid := ids.header, linaddr := e.enclaveAddress, pt := e.pt, rwx := e.rwx, pending := e.pending,
        modified := e.modified, pr := e.pr }
      128 (Vector.ofFn fun i => s.mem.read (c.regs.paSrc + i.val)) 4096
    ∃ t, exec .enclsEwb s = .next t ∧
      (∀ (i : Nat) (hi : i < 4096), t.mem.read (c.info.paOut + i) = result.1[i]) ∧
      (∀ (i : Nat) (hi : i < s.cfg.pcmd.macSize), t.mem.read (c.info.paPcmd + s.cfg.pcmd.mac + i) = result.2[i])

/-- A child page is encrypted under its SECS's EID, which is also the handle in `PCMD.ENCLAVEID` (rules R102, R107,
R109). The version is a free value, decision D15 (log 2), the function opaque, D16 (log 6), the shift not truncated,
D36 (log 42). -/
def Obligations.ChildPageBoundToItsEnclave : Prop :=
  ∀ (s : State) (c : EwbContext) (p : Nat), EwbReady s c → c.kind = .child p →
    (s.epcm c.regs.paSrc).blocked = true → s.env.trackingCorrect = true →
    ∃ t, exec .enclsEwb s = .next t ∧
      (∀ (i : Nat) (hi : i < 4096), t.mem.read (c.info.paOut + i) =
        (Config.aesGcmEnc s.cfg.pcmd.macSize s.crBasePk (s.version.toNat * 2 ^ 32)
          (ewbHeader (s.epcm c.regs.paSrc) (s.secsEid p)) 128 (s.mem.readPage c.regs.paSrc) 4096).1[i]) ∧
      t.mem.readLe (c.info.paPcmd + s.cfg.pcmd.enclaveId) 8 = (s.secsEid p).toNat

/-- A SECS page is encrypted with EID 0 in the header, and its own EID is the handle in `PCMD.ENCLAVEID` (rules R105,
R107, R109). That it has no child rests on HasChild, decision D20 (log 26). The version is a free value, decision D15
(log 2), the function opaque, D16 (log 6), the shift not truncated, D36 (log 42). -/
def Obligations.SecsPageHandle : Prop :=
  ∀ (s : State) (c : EwbContext), EwbReady s c → c.kind = .secs → s.hasChild (pageOf c.regs.paSrc) = false →
    (s.vmxCond = true → s.epcVirtExtensions = true → s.secsVirtChildCnt (pageOf c.regs.paSrc) = 0) →
    ∃ t, exec .enclsEwb s = .next t ∧
      (∀ (i : Nat) (hi : i < 4096), t.mem.read (c.info.paOut + i) =
        (Config.aesGcmEnc s.cfg.pcmd.macSize s.crBasePk (s.version.toNat * 2 ^ 32)
          (ewbHeader (s.epcm c.regs.paSrc) 0) 128 (s.mem.readPage c.regs.paSrc) 4096).1[i]) ∧
      t.mem.readLe (c.info.paPcmd + s.cfg.pcmd.enclaveId) 8 = (s.secsEid (pageOf c.regs.paSrc)).toNat

/-- A VA page is evicted with no check of blocking, tracking or children, with EID 0 in the header and no handle,
and its entry is invalidated (rules R106, R107, R109, R113). The version is a free value, decision D15 (log 2), the
function opaque, D16 (log 6), the shift not truncated, D36 (log 42). -/
def Obligations.VaPageHasNoHandle : Prop :=
  ∀ (s : State) (c : EwbContext), EwbReady s c → c.kind = .va →
    ∃ t, exec .enclsEwb s = .next t ∧
      (∀ (i : Nat) (hi : i < 4096), t.mem.read (c.info.paOut + i) =
        (Config.aesGcmEnc s.cfg.pcmd.macSize s.crBasePk (s.version.toNat * 2 ^ 32)
          (ewbHeader (s.epcm c.regs.paSrc) 0) 128 (s.mem.readPage c.regs.paSrc) 4096).1[i]) ∧
      t.mem.readLe (c.info.paPcmd + s.cfg.pcmd.enclaveId) 8 = 0 ∧ (t.epcm c.regs.paSrc).valid = false

/-- The PCMD: the FLAGS word made of the source page's EPCM fields, every other byte of SECINFO zero, RESERVED zero,
ENCLAVEID the handle; under the default layouts the word is the sum of rule R110 and every byte of the 128 is written
(rules R53, R54, R55, R110). The layouts are decisions D10 and D38 (log 25). -/
def Obligations.PcmdContents : Prop :=
  (∀ (s : State) (c : EwbContext) (ids : EnclaveIds), EwbReady s c → Evictable s c ids →
    ∃ t, exec .enclsEwb s = .next t ∧
      t.mem.readLe (c.info.paPcmd + s.cfg.pcmd.secinfo + s.cfg.secinfoFlags) 8 =
        flagsWord s.cfg (s.epcm c.regs.paSrc) ∧
      (∀ i, i < s.cfg.pcmd.secinfoSize → ¬(s.cfg.secinfoFlags ≤ i ∧ i < s.cfg.secinfoFlags + 8) →
        t.mem.read (c.info.paPcmd + s.cfg.pcmd.secinfo + i) = 0) ∧
      (∀ i, i < s.cfg.pcmd.reservedSize → t.mem.read (c.info.paPcmd + s.cfg.pcmd.reserved + i) = 0) ∧
      t.mem.readLe (c.info.paPcmd + s.cfg.pcmd.enclaveId) 8 = ids.pcmd.toNat) ∧
  (∀ (cfg : Config) (e : EpcmEntry), cfg.flags = defaultFlags →
    flagsWord cfg e = e.rwx.toNat + 8 * e.pending.toNat + 16 * e.modified.toNat + 32 * e.pr.toNat +
      256 * (ptValue cfg e.pt).toNat) ∧
  (∀ (s : State) (c : EwbContext) (ids : EnclaveIds), s.cfg.pcmd = defaultPcmd →
    ∀ i, i < 128 → ∃ w ∈ evictWrites s c ids, w.covers (c.info.paPcmd + i))

/-- `PAGEINFO.LINADDR` receives the page's enclave address; every other byte of the PAGEINFO is as it was (rule R111). -/
def Obligations.LinaddrWritten : Prop :=
  ∀ (s : State) (c : EwbContext) (ids : EnclaveIds), EwbReady s c → Evictable s c ids →
    ∃ t, exec .enclsEwb s = .next t ∧
      t.mem.readLe (c.info.paPi + s.cfg.pageInfo.linaddr) 8 = (s.epcm c.regs.paSrc).enclaveAddress.toNat ∧
      ∀ i, i < 32 → ¬(s.cfg.pageInfo.linaddr ≤ i ∧ i < s.cfg.pageInfo.linaddr + 8) →
        t.mem.read (c.info.paPi + i) = s.mem.read (c.info.paPi + i)

/-- An eviction clears VALID of the source page's EPCM entry; every other field of it, and every other entry, is as it
was (rule R113). That the other fields keep their values is decision D19 of the spec (log 29). -/
def Obligations.OnlyValidOfSourceCleared : Prop :=
  ∀ (s : State) (c : EwbContext) (ids : EnclaveIds), EwbReady s c → Evictable s c ids →
    ∃ t, exec .enclsEwb s = .next t ∧
      t.epcm c.regs.paSrc = { s.epcm c.regs.paSrc with valid := false } ∧
      ∀ page, page ≠ pageOf c.regs.paSrc → t.epcPage? page = s.epcPage? page

/-- After an eviction the source page's 4096 bytes are a free value (rule R38, decision D18, log 5); after an error-code
exit all memory is as it was. -/
def Obligations.EvictedContentIsFree : Prop :=
  ∀ (s : State) (c : EwbContext), EwbReady s c → ∃ t, exec .enclsEwb s = .next t ∧
    ((∃ ids, Evictable s c ids) →
      ∀ (i : Nat) (hi : i < 4096), t.mem.read (c.regs.paSrc + i) = (Config.freePageContent s.drawCount)[i]) ∧
    ((∀ ids, ¬Evictable s c ids) → t.mem = s.mem)

/-- ZF is set exactly when the page is not evicted, CF exactly when it is and its slot was occupied; so never both
(rules R21, R117). The rules cited mark these as derived from the Operation; HasChild is decision D20 (log 26). -/
def Obligations.ZeroAndCarryByOutcome : Prop :=
  ∀ (s : State) (c : EwbContext), EwbReady s c → ∃ t, exec .enclsEwb s = .next t ∧
    (t.flag .zf = true ↔ ∀ ids, ¬Evictable s c ids) ∧
    (t.flag .cf = true ↔ (∃ ids, Evictable s c ids) ∧ s.mem.readLe c.regs.paVa 8 ≠ 0) ∧
    ¬(t.flag .zf = true ∧ t.flag .cf = true)

/-- RAX is 0 exactly when the page is evicted into an empty slot, and `SGX_VA_SLOT_OCCUPIED` exactly when it is
evicted into an occupied one: the codes are non-zero and distinct (rules R85, R117). That the codes are non-zero and
distinct is decision D8 of the spec (log 1). -/
def Obligations.ReturnCodeTellsOutcome : Prop :=
  ∀ (s : State) (c : EwbContext), EwbReady s c → ∃ t, exec .enclsEwb s = .next t ∧
    (t.regs.rax = 0 ↔ (∃ ids, Evictable s c ids) ∧ s.mem.readLe c.regs.paVa 8 = 0) ∧
    (t.regs.rax = s.cfg.codes.vaSlotOccupied ↔ (∃ ids, Evictable s c ids) ∧ s.mem.readLe c.regs.paVa 8 ≠ 0)

/-! ### Frame -/

/-- Whatever next state EWB answers, it leaves alone: the parameters, RBX, RCX, RDX, CPL, DS, paging, the
virtualisation state, the key, and every bit of RFLAGS but the six flags; and every EPC page's membership, SECS fields
and EPCM fields but VALID (rules R18, R19, R37, R113). The frame is decision D5 of the spec (log 29), the flag
positions general knowledge GK3 (log 11). -/
def Obligations.EwbRegisterFrame : Prop :=
  ∀ s t : State, exec .enclsEwb s = .next t → Unchanged s t ∧ OtherFlagBitsKept s t ∧
    (∀ pa, t.inEpc pa = s.inEpc pa) ∧ (∀ page, t.secsEid page = s.secsEid page) ∧
    (∀ page, t.secsVirtChildCnt page = s.secsVirtChildCnt page) ∧
    (∀ pa, { t.epcm pa with valid := false } = { s.epcm pa with valid := false })

/-- An eviction leaves every byte alone outside the output page, the PCMD, `PAGEINFO.LINADDR`, the VA slot and the
evicted page; no VMCS field changes (rules R19, R60). The frame is decision D5 of the spec (log 29). -/
def Obligations.EvictionMemoryFrame : Prop :=
  ∀ (s t : State) (c : EwbContext), EwbReady s c → exec .enclsEwb s = .next t → t.vmcs = s.vmcs ∧
    ∀ x, ¬(c.info.paOut ≤ x ∧ x < c.info.paOut + 4096) → ¬(c.info.paPcmd ≤ x ∧ x < c.info.paPcmd + 128) →
      ¬(c.info.paPi + s.cfg.pageInfo.linaddr ≤ x ∧ x < c.info.paPi + s.cfg.pageInfo.linaddr + 8) →
      ¬(c.regs.paVa ≤ x ∧ x < c.regs.paVa + 8) → ¬(c.regs.paSrc ≤ x ∧ x < c.regs.paSrc + 4096) →
      t.mem.read x = s.mem.read x

/-- Where the checks before the commit point do not all pass, a next state can only be the VM exit: registers, flags,
RIP, all memory and every EPCM entry are as before (rules R124, R137, R139). That the VM exit is a next state with a
record is log 8. -/
def Obligations.OnlyVmExitWithoutCommit : Prop :=
  ∀ s t : State, (∀ c, ¬EwbReady s c) → exec .enclsEwb s = .next t →
    t.vmExited = true ∧ t.regs = s.regs ∧ t.rflags = s.rflags ∧ t.rip = s.rip ∧ t.mem = s.mem ∧ t.epc = s.epc ∧
      s.srcConflict = true ∧ s.vmxCond = true ∧ s.epcVirtExtensions = true

/-! ### Faults, in the order of rule R136 -/

/-- At `CPL ≠ 0` EWB faults with vector `VEC_NOPRIV` and no error code before any operand check; the default vector is
6 (rule R142; the vector is general knowledge GK10, log 9). That the outcome is a fault and its vector are decision D6
of the spec; the vector is general knowledge GK10 (log 9). -/
def Obligations.NotPrivilegedFaults : Prop :=
  (∀ s : State, Admitted s → s.cpl ≠ 0 →
    exec .enclsEwb s =
      .fault (.notPrivileged { vector := s.cfg.vecNoPriv, errorCode := none, address := none, rip := s.rip })) ∧
  defaultConfig.vecNoPriv = 6

/-- S1: `#GP(0)` when PAGEINFO is not 32-byte aligned or the source page not 4096-byte aligned (rule R87). -/
def Obligations.MisalignedRegisterOperandFaults : Prop :=
  ∀ s : State, Admitted s → s.cpl = 0 →
    ((s.operand s.regs.rbx).la.toNat % 32 ≠ 0 ∨ (s.operand s.regs.rcx).la.toNat % 4096 ≠ 0) →
    exec .enclsEwb s = .fault (gpFault s)

/-- S2: `#PF` at the source page's linear address when it does not translate, with the code of the translation, or
translates outside the EPC, with a code that is a free value (rules R88, R49, R134, log 4). The free error code is
decision D25 (log 4). -/
def Obligations.SourceOutsideEpcFaults : Prop :=
  ∀ s : State, S1Passes s →
    (∀ ec, s.translate (s.operand s.regs.rcx).la .write = .error ec →
      exec .enclsEwb s = .fault (pfFault s (s.operand s.regs.rcx).la ec)) ∧
    (∀ pa, s.translate (s.operand s.regs.rcx).la .write = .ok pa → s.inEpc pa = false →
      exec .enclsEwb s = .fault (pfFault s (s.operand s.regs.rcx).la (Config.freePfErrorCode s.drawCount)))

/-- S3: `#GP(0)` when the slot is not 8-byte aligned, only after S2; with the source page outside the EPC as well the
fault is S2's (rule R89). -/
def Obligations.MisalignedSlotFaults : Prop :=
  (∀ (s : State) (paSrc : Nat), S2Passes s paSrc → (s.operand s.regs.rdx).la.toNat % 8 ≠ 0 →
    exec .enclsEwb s = .fault (gpFault s)) ∧
  (∀ (s : State) (pa : Nat), S1Passes s → s.translate (s.operand s.regs.rcx).la .write = .ok pa → s.inEpc pa = false →
    (s.operand s.regs.rdx).la.toNat % 8 ≠ 0 →
    ∃ ec, exec .enclsEwb s = .fault (pfFault s (s.operand s.regs.rcx).la ec))

/-- S4: `#PF` at the slot's linear address when it does not translate or translates outside the EPC (rules R90, R134).
The free error code is decision D25 (log 4). -/
def Obligations.SlotOutsideEpcFaults : Prop :=
  ∀ (s : State) (paSrc : Nat), S3Passes s paSrc →
    (∀ ec, s.translate (s.operand s.regs.rdx).la .write = .error ec →
      exec .enclsEwb s = .fault (pfFault s (s.operand s.regs.rdx).la ec)) ∧
    (∀ pa, s.translate (s.operand s.regs.rdx).la .write = .ok pa → s.inEpc pa = false →
      exec .enclsEwb s = .fault (pfFault s (s.operand s.regs.rdx).la (Config.freePfErrorCode s.drawCount)))

/-- S5: `#GP(0)` when the source page and the slot resolve to the same physical EPC page, whatever their linear
addresses (rule R91). That physical pages are compared is the spec's own inference from the word "resolve". -/
def Obligations.SamePageFaults : Prop :=
  ∀ (s : State) (paSrc paVa : Nat), S4Passes s paSrc paVa → pageOf paSrc = pageOf paVa →
    exec .enclsEwb s = .fault (gpFault s)

/-- S6 and S8: a page fault on PAGEINFO, then on the PCMD, then on the output page, each with the code of the
translation (rules R48, R135). The placement and the order are decision D14 of the spec (log 30). -/
def Obligations.InfoOperandPageFaults : Prop :=
  (∀ (s : State) (r : RegOperands) (ec : Nat), S5Passes s r → s.translate r.pi.la .write = .error ec →
    exec .enclsEwb s = .fault (pfFault s r.pi.la ec)) ∧
  (∀ (s : State) (r : RegOperands) (paPi ec : Nat), S8AddressesPass s r paPi →
    s.translate (pcmdOperand s paPi).la .write = .error ec →
    exec .enclsEwb s = .fault (pfFault s (pcmdOperand s paPi).la ec)) ∧
  (∀ (s : State) (r : RegOperands) (paPi pa ec : Nat), S8AddressesPass s r paPi →
    s.translate (pcmdOperand s paPi).la .write = .ok pa → s.translate (outOperand s paPi).la .write = .error ec →
    exec .enclsEwb s = .fault (pfFault s (outOperand s paPi).la ec))

/-- S7: `#GP(0)` when `PAGEINFO.LINADDR` or `PAGEINFO.SECS` is not zero; in particular for a PAGEINFO reused without
clearing LINADDR after an eviction of a page whose ENCLAVEADDRESS was not 0 (rule R93). That second clause is the
spec's own inference, from the write of S21 (rule R111). -/
def Obligations.NonZeroLinaddrOrSecsFaults : Prop :=
  (∀ (s : State) (r : RegOperands) (paPi : Nat), S5Passes s r → s.translate r.pi.la .write = .ok paPi →
    (s.mem.readLe (paPi + s.cfg.pageInfo.linaddr) 8 ≠ 0 ∨ s.mem.readLe (paPi + s.cfg.pageInfo.secs) 8 ≠ 0) →
    exec .enclsEwb s = .fault (gpFault s)) ∧
  (∀ (s t u : State) (c : EwbContext) (ids : EnclaveIds) (r : RegOperands), EwbReady s c → Evictable s c ids →
    exec .enclsEwb s = .next t → (s.epcm c.regs.paSrc).enclaveAddress ≠ 0 → u.mem = t.mem → u.cfg = s.cfg →
    S5Passes u r → u.translate r.pi.la .write = .ok c.info.paPi →
    exec .enclsEwb u = .fault (gpFault u))

/-- S8: `#GP(0)` when the PCMD is not 128-byte aligned or the output page not 4096-byte aligned (rule R94). -/
def Obligations.MisalignedInfoOperandFaults : Prop :=
  ∀ (s : State) (r : RegOperands) (paPi : Nat), S7Passes s r paPi →
    ((pcmdOperand s paPi).la.toNat % 128 ≠ 0 ∨ (outOperand s paPi).la.toNat % 4096 ≠ 0) →
    exec .enclsEwb s = .fault (gpFault s)

/-- `#GP(0)` when an operand fails the limit test in ModeProt or the canonical test in Mode64: PAGEINFO and the source
page at S1, the slot at S3, the PCMD and the output page at S8. The placement is decision D14 of the spec (log 30),
the limit as an interval log 21, the canonical test general knowledge GK13 (log 22). -/
def Obligations.AddressTestFaults : Prop :=
  (∀ s : State, Admitted s → s.cpl = 0 →
    (s.addrOk (s.operand s.regs.rbx) 32 = false ∨ s.addrOk (s.operand s.regs.rcx) 4096 = false) →
    exec .enclsEwb s = .fault (gpFault s)) ∧
  (∀ (s : State) (paSrc : Nat), S2Passes s paSrc → s.addrOk (s.operand s.regs.rdx) 8 = false →
    exec .enclsEwb s = .fault (gpFault s)) ∧
  (∀ (s : State) (r : RegOperands) (paPi : Nat), S7Passes s r paPi →
    (s.addrOk (pcmdOperand s paPi) 128 = false ∨ s.addrOk (outOperand s paPi) 4096 = false) →
    exec .enclsEwb s = .fault (gpFault s)) ∧
  (∀ (s : State) (o : Operand) (size : Nat), 0 < size → s.mode = .modeProt →
    (s.addrOk o size = true ↔
      ∀ i, i < size → s.ds.lowest ≤ o.off.toNat + i ∧ o.off.toNat + i ≤ s.ds.highest)) ∧
  (∀ (s : State) (o : Operand) (size : Nat), s.mode = .mode64 →
    (s.addrOk o size = true ↔ ∀ i, s.cfg.linearWidth - 1 ≤ i → i < 64 → o.la.getLsbD i = o.la.getLsbD 63))

/-- After S8 the model refuses an operand that should be in regular memory and lies in the EPC, and regions that share
a byte (rules R66, R67). Both refusals are decision D24 of the spec. -/
def Obligations.NonEpcOperandsRefused : Prop :=
  ∀ (s : State) (r : RegOperands) (paPi paPcmd paOut : Nat), S8AddressesPass s r paPi →
    s.translate (pcmdOperand s paPi).la .write = .ok paPcmd → s.translate (outOperand s paPi).la .write = .ok paOut →
    ((s.inEpc paPi = true ∨ s.inEpc paOut = true ∨ s.inEpc paPcmd = true) →
      exec .enclsEwb s = .refused .nonEpcOperandInEpc) ∧
    (s.inEpc paPi = false → s.inEpc paOut = false → s.inEpc paPcmd = false →
      ((∃ x, paPi ≤ x ∧ x < paPi + 32 ∧ paOut ≤ x ∧ x < paOut + 4096) ∨
        (∃ x, paPi ≤ x ∧ x < paPi + 32 ∧ paPcmd ≤ x ∧ x < paPcmd + 128) ∨
        (∃ x, paOut ≤ x ∧ x < paOut + 4096 ∧ paPcmd ≤ x ∧ x < paPcmd + 128)) →
      exec .enclsEwb s = .refused .operandsOverlap)

/-- S9: a conflict on the source page is the VM exit for a guest with the extensions enabled, and `#GP(0)` otherwise,
even when the page's EPCM entry is invalid; with no other SGX instruction in flight there is no such conflict and no VM
exit (rule R123). VMX_COND is an uninterpreted Boolean, decision D22 (log 27); the VM exit as a next state is log 8; the
in-flight condition is log 3. -/
def Obligations.SourceConflictOutcome : Prop :=
  (∀ (s : State) (r : RegOperands) (m : InfoOperands), S8Passes s r m → s.srcConflict = true →
    (s.vmxCond = true → s.epcVirtExtensions = true → ∃ t, exec .enclsEwb s = .next t ∧ t.vmExited = true) ∧
    (s.vmxCond = false ∨ s.epcVirtExtensions = false → exec .enclsEwb s = .fault (gpFault s))) ∧
  (∀ s t : State, s.otherInFlight = false → exec .enclsEwb s = .next t → s.srcConflict = false ∧ t.vmExited = false)

/-- The VM exit writes the five VMCS fields with the values of rule R124, and all other state of the architecture is as
before it; its draws are used up (rules R41, R42). The two constants are parameters without default, decision D35 (log
1); the VM exit as a next state is log 8, one draw of TMP_VER per execution decision D15 (log 2), the redraw of the
predicates log 3. -/
def Obligations.VmExitWritesFiveFields : Prop :=
  ∀ (s : State) (r : RegOperands) (m : InfoOperands), S8Passes s r m → s.srcConflict = true → s.vmxCond = true →
    s.epcVirtExtensions = true →
    ∃ t, exec .enclsEwb s = .next t ∧
      t.vmcs = { exitReason := s.cfg.exitReasonSgxConflict, exitQualificationCode := s.cfg.epcPageConflictException,
                 exitQualificationError := 0, guestPhysicalAddress := r.paSrc, guestLinearAddress := r.src.la } ∧
      t.regs = s.regs ∧ t.rflags = s.rflags ∧ t.rip = s.rip ∧ t.mem = s.mem ∧ t.epc = s.epc ∧
      t.ewbWritten = s.ewbWritten ∧ Unchanged s t ∧ t.vmExited = true ∧
      t.drawCount = s.drawCount + 1 ∧ t.env = Config.freeEnvironment (s.drawCount + 1)

/-- A recorded VM exit is terminal for the agent (rule R139, decision D35 of the spec, log 8). -/
def Obligations.VmExitIsTerminal : Prop :=
  ∀ s : State, s.vmExited = true →
    exec .enclsEwb s = .refused .vmExitRecorded ∧ ∀ t, step s ≠ .next t

/-- S10: `#GP(0)` when the VA page is being modified, with no VM exit alternative; then when the SECS page is in use
or the tracking resource is; with no other SGX instruction in flight none of them stops a page that S11 to S13 find in
order, and a SECS conflict stops no valid page that is not a child (rules R125, R126). The place of the last two is
decision D29 of the spec (log 30); the in-flight condition is log 3, the limit to child pages log 33. -/
def Obligations.OtherConflictsFault : Prop :=
  (∀ (s : State) (r : RegOperands) (m : InfoOperands), S8Passes s r m → s.srcConflict = false →
    (s.vaModified = true ∨ s.secsConflict r.paSrc = true ∨ s.trackingResourceInUse = true) →
    exec .enclsEwb s = .fault (gpFault s)) ∧
  (∀ (s : State) (r : RegOperands) (m : InfoOperands) (k : SourceKind), S8Passes s r m → SourceReady s r k →
    (s.otherInFlight = false ∨
      (s.srcConflict = false ∧ s.vaModified = false ∧ s.trackingResourceInUse = false ∧ ∀ p, k ≠ .child p)) →
    ∃ t, exec .enclsEwb s = .next t ∧ t.vmExited = false)

/-- S11: `#PF` at the source page's linear address when its EPCM entry is not valid (rule R95). That the fault is
`#PF` and not the lists' `#GP` is decision D28 of the spec, the free code decision D25 (log 4). -/
def Obligations.InvalidSourcePageFaults : Prop :=
  ∀ (s : State) (r : RegOperands) (m : InfoOperands), S8Passes s r m → Quiet s r → (s.epcm r.paSrc).valid = false →
    exec .enclsEwb s = .fault (pfFault s r.src.la (Config.freePfErrorCode s.drawCount))

/-- S12: `#PF` at the slot's linear address, not its page's, when the page that holds it is not valid or not `PT_VA`
(rule R96). That the fault is `#PF` and not the lists' `#GP` is decision D28 of the spec, the free code decision D25
(log 4). -/
def Obligations.BadVaPageFaults : Prop :=
  ∀ (s : State) (r : RegOperands) (m : InfoOperands), S11Passes s r m →
    ((s.epcm r.paVa).valid = false ∨ (s.epcm r.paVa).pt ≠ .va) →
    exec .enclsEwb s = .fault (pfFault s r.va.la (Config.freePfErrorCode s.drawCount))

/-- S13: for a child page with a sound SECS link, `#GP(0)` when blocking is not correct, whatever its BLOCKED bit; the
model refuses a type that is none of the seven and a link that names no valid SECS page (rules R97, R98, R36). The
refusals are decisions D32 and D39 of the spec (log 38). -/
def Obligations.PageTypeChecks : Prop :=
  ∀ (s : State) (r : RegOperands) (m : InfoOperands), S12Passes s r m →
    (∀ p, isChildType (s.epcm r.paSrc).pt = true → (s.epcm r.paSrc).enclaveSecs = some p → s.isValidSecs p = true →
      s.env.eblockCorrect = false → exec .enclsEwb s = .fault (gpFault s)) ∧
    (namedType (s.epcm r.paSrc).pt = false → exec .enclsEwb s = .refused .pageTypeNotNamed) ∧
    (isChildType (s.epcm r.paSrc).pt = true →
      (∀ p, (s.epcm r.paSrc).enclaveSecs = some p → s.isValidSecs p = false) →
      exec .enclsEwb s = .refused .secsLinkBroken)

/-- Every fault EWB raises records the RIP of the `ENCLS`; `#GP` has error code 0 and no address, `#PF` an error code
and the linear address of one of the five operands, each with its vector, and the fault at `CPL ≠ 0` neither
(rules R131, R142). That a fault is the end of the step with a record is decision D25 of the spec (log 7); the record
of the fault at `CPL ≠ 0` is decision D6 (log 9). -/
def Obligations.FaultRecordContents : Prop :=
  ∀ (s : State) (f : Fault), exec .enclsEwb s = .fault f →
    f = gpFault s ∨
    (∃ la ec, f = pfFault s la ec ∧
      (la = (s.operand s.regs.rbx).la ∨ la = (s.operand s.regs.rcx).la ∨ la = (s.operand s.regs.rdx).la ∨
        ∃ paPi, s.translate (s.operand s.regs.rbx).la .write = .ok paPi ∧
          (la = (pcmdOperand s paPi).la ∨ la = (outOperand s paPi).la))) ∨
    (s.cpl ≠ 0 ∧
      f = .notPrivileged { vector := s.cfg.vecNoPriv, errorCode := none, address := none, rip := s.rip })

/-- EWB runs only in the admitted modes, with SGX1 present and enabled, outside an enclave, with RIP not wrapping: and
where the EPCM premises hold: one entry per 4096-aligned EPC page and, at every page but the one RCX names, a valid
entry of a named type and a child's link to a valid SECS page. Any other state is refused, at every privilege level
(rules R16, R144, R32, R20, R149). The refusals are decisions D33, D34, D39 and D4 of the spec; that they precede the
privilege check is log 31, the source page's own two premises, which S13 tests, log 38. -/
def Obligations.UnadmittedStateRefused : Prop :=
  ∀ s : State, ¬Admitted s → ∃ r, exec .enclsEwb s = .refused r

/-! ### Memory and addresses -/

/-- `MemWrite` then `MemRead` of `n` bytes gives the low `8n` bits; byte `i` written is bits `8i+7..8i`; other bytes
stay (rules R50, R57). Little-endian order is decision D2 of the spec (log 24). -/
def Obligations.LittleEndianMemory : Prop :=
  ∀ (m : Memory) (a n v : Nat),
    (m.writeBytes a (leBytes n v)).readLe a n = v % 2 ^ (8 * n) ∧
    (∀ i, i < n → ((m.writeBytes a (leBytes n v)).read (a + i)).toNat = v >>> (8 * i) % 256) ∧
    (∀ x, ¬(a ≤ x ∧ x < a + n) → (m.writeBytes a (leBytes n v)).read x = m.read x)

/-- Translation keeps the offset in the page, an aligned operand stays in its page, and so one translation serves it:
its bytes translate to consecutive addresses (rules R48, R63). Paging by whole pages is decision D12 of the spec (log
12). -/
def Obligations.OperandStaysInItsPage : Prop :=
  ∀ (s : State) (la : Word) (acc : Access) (pa n : Nat), s.translate la acc = .ok pa →
    (n = 8 ∨ n = 32 ∨ n = 128 ∨ n = 4096) → la.toNat % n = 0 →
    pa % n = 0 ∧ ∀ i, i < n → s.translate (la + BitVec.ofNat 64 i) acc = .ok (pa + i) ∧ pageOf (pa + i) = pageOf pa

/-- In ModeProt the upper halves of RBX, RCX and RDX are not seen: EWB answers alike, and leaves them as they are
(rule R26). The 32-bit form is decision D3 of the spec, general knowledge GK12. -/
def Obligations.UpperHalvesIgnoredInProt : Prop :=
  ∀ (s : State) (b c d : Word), s.mode = .modeProt → b.setWidth 32 = s.regs.rbx.setWidth 32 →
    c.setWidth 32 = s.regs.rcx.setWidth 32 → d.setWidth 32 = s.regs.rdx.setWidth 32 →
    match exec .enclsEwb s, exec .enclsEwb { s with regs := { s.regs with rbx := b, rcx := c, rdx := d } } with
    | .next t, .next u => u = { t with regs := { t.regs with rbx := b, rcx := c, rdx := d } }
    | .fault f, .fault g => f = g
    | .refused p, .refused q => p = q
    | _, _ => False

/-- In Mode64 the DS base counts as 0 and no limit applies: EWB answers alike for any DS (rule R24). The base 0 and
the absent limit are general knowledge GK12 (log 21). -/
def Obligations.DsIgnoredInMode64 : Prop :=
  ∀ (s : State) (ds : Segment), s.mode = .mode64 →
    match exec .enclsEwb s, exec .enclsEwb { s with ds := ds } with
    | .next t, .next u => u = { t with ds := ds }
    | .fault f, .fault g => f = g
    | .refused p, .refused q => p = q
    | _, _ => False

/-! ### The whole machine -/

/-- The key reaches nothing but the ciphertext and the MAC: two states that differ in `CR_BASE_PK` alone have the same
outcome, and next states that differ in the key and in bytes of the output page and of `PCMD.MAC` alone (rules R31,
R109). That one place reads the key is decision D17 of the spec (log 17). -/
def Obligations.KeyReachesOnlyCiphertextAndMac : Prop :=
  ∀ (s : State) (key : BitVec 128),
    match exec .enclsEwb s, exec .enclsEwb { s with crBasePk := key } with
    | .next t, .next u =>
      u = { t with crBasePk := key, mem := u.mem } ∧
      ∀ x, u.mem.read x ≠ t.mem.read x → ∃ c, EwbReady s c ∧
        ((c.info.paOut ≤ x ∧ x < c.info.paOut + 4096) ∨
          (c.info.paPcmd + s.cfg.pcmd.mac ≤ x ∧ x < c.info.paPcmd + s.cfg.pcmd.mac + s.cfg.pcmd.macSize))
    | .fault f, .fault g => f = g
    | .refused p, .refused q => p = q
    | _, _ => False

/-- Every step keeps the invariant: canonical memory, one EPCM entry per 4096-aligned EPC page, valid entries of named
types, valid child entries linked to a valid SECS page (rules R36, R103, R113, R149). The premises are decision D39,
HasChild decision D20 of the spec (logs 13, 26). -/
def Obligations.StepKeepsInvariant : Prop :=
  ∀ s t : State, s.Inv → step s = .next t → t.Inv

/-- The invariant holds at reset (the reset values are the model's own, logs 14, 15, 16, 17). -/
def Obligations.ResetMeetsInvariant : Prop := State.reset.Inv

/-- The reset state meets the start premises of rule R149 (the reset values are the model's own, logs 15, 16). -/
def Obligations.ResetIsAdmitted : Prop := Admitted State.reset ∧ State.reset.cpl = 0

/-- The word placed by the host is fetched and run by the next step from reset. How a word is placed is logs 18 and
40. -/
def Obligations.PlacedLeafRuns : Prop :=
  step (State.reset.withFetchWord 32 0x0000000B) = exec .enclsEwb (State.reset.withFetchWord 32 0x0000000B)

/-- No step gives a SECS page a child it did not have; and evicting its last child leaves it without one (rules R40,
R113). HasChild is decision D20 of the spec (log 26). -/
def Obligations.ChildrenOnlyLeave : Prop :=
  (∀ (s t : State) (p : Nat), step s = .next t → t.hasChild p = true → s.hasChild p = true) ∧
  (∀ (s t : State) (c : EwbContext) (ids : EnclaveIds) (p : Nat), EwbReady s c → Evictable s c ids →
    exec .enclsEwb s = .next t →
    (∀ e ∈ s.epc, e.2.entry.isChildOf p = true → e.1 = pageOf c.regs.paSrc) → t.hasChild p = false)

/-- A page once evicted is not evicted again: from the state after an eviction, with RCX as it was and any other
registers, memory and environment, EWB does not reach its commit point; it answers no next state but the VM exit, with
memory and the EPCM as they were; and where S1 to S10 pass it ends in the `#PF` at the source page (rules R62, R95).
The spec marks this as derived from its rules on S11 and S23; the error code is a free value, decision D25 (log 4);
that the fault is `#PF` is decision D28; the VM exit as a next state is log 8. -/
def Obligations.EvictedPageIsNotEvictedAgain : Prop :=
  ∀ (s t : State) (c : EwbContext) (ids : EnclaveIds), EwbReady s c → Evictable s c ids → exec .enclsEwb s = .next t →
    ∀ (rax rbx rdx : Word) (mem : Memory) (env : Environment),
      let u := { t with regs := { t.regs with rax := rax, rbx := rbx, rdx := rdx }, mem := mem, env := env }
      (∀ d, ¬EwbReady u d) ∧
      (∀ v, exec .enclsEwb u = .next v → v.vmExited = true ∧ v.mem = u.mem ∧ v.epc = u.epc) ∧
      ∀ (r : RegOperands) (m : InfoOperands), S8Passes u r m → Quiet u r →
        exec .enclsEwb u = .fault (pfFault u (u.operand u.regs.rcx).la (Config.freePfErrorCode u.drawCount))

/-- No step changes which pages are in the EPC, how addresses translate, the parameters, the mode or the privilege
level (rules R23, R27, R43, R64). The frame is decision D5 of the spec (log 29). -/
def Obligations.StepKeepsConfiguration : Prop :=
  ∀ s t : State, step s = .next t → Unchanged s t ∧ (∀ pa, t.inEpc pa = s.inEpc pa) ∧
    ∀ la acc, t.translate la acc = s.translate la acc

/-- An environment step writes what it names and nothing else: a register, RIP, a byte of memory or a field of an EPCM
entry that no write of it names reads as before, and so does every byte inside the EPC; the two SECS fields, the EPC's
extent and all other state are as before; and the last write of a step is in the state it leaves, a run of bytes only
where all of it is regular memory, an EPCM field only of an EPC page (rule R153). The environment step as a function
apart from the machine's step, and what it does not write, are log 36. -/
def Obligations.EnvStepWritesOnlyWhatItNames : Prop :=
  (∀ (s : State) (ws : List EnvWrite), let t := s.envStep ws
    EnvKept s t ∧
    (∀ r, (∀ v, .register r v ∉ ws) → t.reg r = s.reg r) ∧
    ((∀ v, .rip v ∉ ws) → t.rip = s.rip) ∧
    (∀ x, (∀ a bs, .bytes a bs ∈ ws → ¬(a ≤ x ∧ x < a + bs.length)) → t.mem.read x = s.mem.read x) ∧
    (∀ x, s.inEpc x = true → t.mem.read x = s.mem.read x) ∧
    (∀ pa k, (∀ f, .epcmField (pageOf pa) f ∈ ws → f.name ≠ k) → (t.epcm pa).field k = (s.epcm pa).field k) ∧
    (∀ pa, t.inEpc pa = s.inEpc pa) ∧ (∀ page, t.secsEid page = s.secsEid page) ∧
    (∀ page, t.secsVirtChildCnt page = s.secsVirtChildCnt page)) ∧
  (∀ (s : State) (ws : List EnvWrite),
    (∀ r v, (s.envStep (ws ++ [.register r v])).reg r = v) ∧
    (∀ v, (s.envStep (ws ++ [.rip v])).rip = v) ∧
    (∀ (a : Nat) (bs : List Byte), (∀ i, i < bs.length → s.inEpc (a + i) = false) →
      ∀ (i : Nat) (hi : i < bs.length), (s.envStep (ws ++ [.bytes a bs])).mem.read (a + i) = bs[i]) ∧
    (∀ (pa : Nat) (f : EpcmField), s.inEpc pa = true →
      ((s.envStep (ws ++ [.epcmField (pageOf pa) f])).epcm pa).field f.name = f))
end

