-- ==== Sys2Proof/Laws/Memory.lean ====
section
/-! SUPPORT. Reads after writes, the canonical form of memory, and little-endian integers. -/

namespace Sys2Proof.Machine

theorem read_append (m₁ m₂ : Memory) (x : Nat) :
    Memory.read (m₁ ++ m₂) x = if x ∈ m₁.map (·.1) then Memory.read m₁ x else Memory.read m₂ x := by
  induction m₁ with
  | nil => simp
  | cons c m ih =>
    obtain ⟨k, b⟩ := c
    by_cases h : k = x
    · simp [Memory.read, h]
    · have h' : ¬x = k := fun e => h e.symm
      simp [Memory.read, h, h', ih]

theorem read_of_not_mem (m : Memory) (x : Nat) (h : x ∉ m.map (·.1)) : Memory.read m x = unlistedByte x := by
  induction m with
  | nil => rfl
  | cons c m ih =>
    simp only [List.map_cons, List.mem_cons, not_or] at h
    rw [Memory.read, if_neg (fun e => h.1 e.symm), ih h.2]

theorem read_filter (m : Memory) (p : Host.Cell → Bool) (x : Nat) (h : ∀ b, p (x, b) = true) :
    Memory.read (m.filter p) x = Memory.read m x := by
  induction m with
  | nil => rfl
  | cons c m ih =>
    obtain ⟨k, b⟩ := c
    by_cases hk : k = x
    · subst hk
      simp [List.filter, h, Memory.read]
    · cases hp : p (k, b) <;> simp [List.filter, hp, Memory.read, hk, ih]

theorem mem_cellsOf {a : Nat} {bs : List Byte} {c : Host.Cell} (h : c ∈ cellsOf a bs) :
    a ≤ c.1 ∧ c.1 < a + bs.length ∧ c.2 ≠ unlistedByte c.1 := by
  induction bs generalizing a with
  | nil => simp [cellsOf] at h
  | cons b bs ih =>
    have tail : c ∈ cellsOf (a + 1) bs → a ≤ c.1 ∧ c.1 < a + (b :: bs).length ∧ c.2 ≠ unlistedByte c.1 := fun hc => by
      obtain ⟨h₁, h₂, h₃⟩ := ih hc
      exact ⟨by omega, by simp only [List.length_cons]; omega, h₃⟩
    rw [cellsOf] at h
    split at h
    · exact tail h
    · rename_i hb
      rcases List.mem_cons.mp h with rfl | h
      · exact ⟨le_refl _, by simp, hb⟩
      · exact tail h

theorem cellsOf_pairwise (a : Nat) (bs : List Byte) : (cellsOf a bs).Pairwise fun c d => c.1 < d.1 := by
  induction bs generalizing a with
  | nil => exact List.Pairwise.nil
  | cons b bs ih =>
    rw [cellsOf]
    split
    · exact ih _
    · exact List.pairwise_cons.mpr ⟨fun c hc => (mem_cellsOf hc).1, ih _⟩

theorem read_cellsOf (a : Nat) (bs : List Byte) (i : Nat) (h : i < bs.length) :
    Memory.read (cellsOf a bs) (a + i) = bs[i] := by
  induction bs generalizing a i with
  | nil => simp at h
  | cons b bs ih =>
    have outside : Memory.read (cellsOf (a + 1) bs) a = unlistedByte a :=
      read_of_not_mem _ _ fun hm => by
        obtain ⟨c, hc, rfl⟩ := List.mem_map.mp hm
        have := (mem_cellsOf hc).1
        omega
    rw [cellsOf]
    cases i with
    | zero =>
      split
      · rename_i hb
        simp [outside, hb]
      · simp [Memory.read]
    | succ j =>
      have hj : j < bs.length := by simpa using h
      have next := ih (a + 1) j hj
      rw [show a + 1 + j = a + (j + 1) by omega] at next
      split
      · simpa using next
      · rw [Memory.read, if_neg (by omega)]
        simpa using next

/-- What a byte reads as after a write: the byte written there, or what it read as before. -/
theorem read_writeBytes (m : Memory) (a : Nat) (bs : List Byte) (x : Nat) :
    Memory.read (m.writeBytes a bs) x =
      if h : a ≤ x ∧ x < a + bs.length then bs[x - a]'(by omega) else Memory.read m x := by
  have notCell : ¬(a ≤ x ∧ x < a + bs.length) → x ∉ (cellsOf a bs).map (·.1) := fun hn hm => by
    obtain ⟨c, hc, rfl⟩ := List.mem_map.mp hm
    exact hn ⟨(mem_cellsOf hc).1, (mem_cellsOf hc).2.1⟩
  have low : ¬x < a → x ∉ (m.filter fun c => decide (c.1 < a)).map (·.1) := fun hn hm => by
    obtain ⟨c, hc, rfl⟩ := List.mem_map.mp hm
    simp only [List.mem_filter, decide_eq_true_eq] at hc
    exact hn hc.2
  rw [Memory.writeBytes, List.append_assoc, read_append]
  by_cases h : a ≤ x ∧ x < a + bs.length
  · rw [if_neg (low (by omega)), dif_pos h, read_append]
    have hr := read_cellsOf a bs (x - a) (by omega)
    rw [show a + (x - a) = x by omega] at hr
    split
    · exact hr
    · rename_i hc
      rw [read_of_not_mem _ _ hc] at hr
      rw [← hr]
      refine read_of_not_mem _ _ fun hm => ?_
      obtain ⟨c, hc', rfl⟩ := List.mem_map.mp hm
      simp only [List.mem_filter, decide_eq_true_eq] at hc'
      omega
  · rw [dif_neg h]
    by_cases hx : x < a
    · have hf := read_filter m (fun c => decide (c.1 < a)) x (fun b => by simpa using hx)
      split
      · exact hf
      · rename_i hm
        rw [read_of_not_mem _ _ hm] at hf
        rw [← hf]
        refine read_of_not_mem _ _ fun hm' => ?_
        rw [List.map_append, List.mem_append] at hm'
        rcases hm' with hm' | hm'
        · exact notCell h hm'
        · obtain ⟨c, hc, rfl⟩ := List.mem_map.mp hm'
          simp only [List.mem_filter, decide_eq_true_eq] at hc
          omega
    · rw [if_neg (low hx), read_append, if_neg (notCell h)]
      exact read_filter m _ x (fun b => by simp only [decide_eq_true_eq]; omega)

/-- A byte outside a write reads as before. -/
theorem read_writeBytes_outside (m : Memory) (a : Nat) (bs : List Byte) (x : Nat)
    (h : ¬(a ≤ x ∧ x < a + bs.length)) : Memory.read (m.writeBytes a bs) x = Memory.read m x := by
  rw [read_writeBytes, dif_neg h]

/-- Every memory write keeps the canonical form. -/
theorem writeBytes_wf {m : Memory} (hm : m.wf) (a : Nat) (bs : List Byte) : (m.writeBytes a bs).wf := by
  obtain ⟨ho, hv⟩ := hm
  refine ⟨?_, fun c hc => ?_⟩
  · rw [Memory.writeBytes, List.append_assoc, List.pairwise_append, List.pairwise_append]
    refine ⟨ho.filter _, ⟨cellsOf_pairwise a bs, ho.filter _, fun c hc d hd => ?_⟩, fun c hc d hd => ?_⟩
    · have := (mem_cellsOf hc).2.1
      simp only [List.mem_filter, decide_eq_true_eq] at hd
      omega
    · simp only [List.mem_append, List.mem_filter, decide_eq_true_eq] at hc hd
      rcases hd with hd | hd
      · have := (mem_cellsOf hd).1
        omega
      · omega
  · simp only [Memory.writeBytes, List.mem_append, List.mem_filter] at hc
    rcases hc with (hc | hc) | hc
    · exact hv c hc.1
    · exact (mem_cellsOf hc).2.2
    · exact hv c hc.1

/-- A byte that none of the writes covers reads as before them all. -/
theorem read_applyWrites_outside (m : Memory) (ws : List Write) (x : Nat) (h : ∀ w ∈ ws, ¬w.covers x) :
    Memory.read (m.applyWrites ws) x = Memory.read m x := by
  induction ws generalizing m with
  | nil => rfl
  | cons w ws ih =>
    rw [Memory.applyWrites, List.foldl_cons]
    rw [show List.foldl (fun m w => Memory.writeBytes m w.address w.bytes) (m.writeBytes w.address w.bytes) ws =
      Memory.applyWrites (m.writeBytes w.address w.bytes) ws from rfl]
    rw [ih _ (fun v hv => h v (List.mem_cons_of_mem _ hv))]
    exact read_writeBytes_outside m _ _ x (h w List.mem_cons_self)

theorem applyWrites_append (m : Memory) (ws vs : List Write) :
    m.applyWrites (ws ++ vs) = (m.applyWrites ws).applyWrites vs := by
  simp [Memory.applyWrites]

theorem applyWrites_cons (m : Memory) (w : Write) (ws : List Write) :
    m.applyWrites (w :: ws) = (m.writeBytes w.address w.bytes).applyWrites ws := rfl

theorem applyWrites_nil (m : Memory) : m.applyWrites [] = m := rfl

/-- A byte of a write that no later write covers reads as what that write put there. -/
theorem read_applyWrites_last (m : Memory) (ws vs : List Write) (w : Write) (i : Nat) (hi : i < w.bytes.length)
    (h : ∀ v ∈ vs, ¬v.covers (w.address + i)) :
    Memory.read (m.applyWrites (ws ++ w :: vs)) (w.address + i) = w.bytes[i] := by
  rw [applyWrites_append, applyWrites_cons, read_applyWrites_outside _ _ _ h, read_writeBytes,
    dif_pos ⟨by omega, by omega⟩]
  simp

/-- Writes in order keep the canonical form. -/
theorem applyWrites_wf {m : Memory} (hm : m.wf) (ws : List Write) : (m.applyWrites ws).wf := by
  induction ws generalizing m with
  | nil => exact hm
  | cons w ws ih => exact ih (writeBytes_wf hm _ _)

theorem length_leBytes (n v : Nat) : (leBytes n v).length = n := by
  induction n generalizing v with
  | zero => rfl
  | succ n ih => simp [leBytes, ih]

theorem length_readBytes (m : Memory) (a : Nat) (n : Nat) : (m.readBytes a n).length = n := by
  induction n generalizing a with
  | zero => rfl
  | succ n ih => simp [Memory.readBytes, ih]

theorem getElem_readBytes (m : Memory) (a : Nat) (n i : Nat) (h : i < (m.readBytes a n).length) :
    (m.readBytes a n)[i] = m.read (a + i) := by
  induction n generalizing a i with
  | zero => simp [Memory.readBytes] at h
  | succ n ih =>
    cases i with
    | zero => rfl
    | succ i =>
      have hi : i < (m.readBytes (a + 1) n).length := by
        simp only [length_readBytes] at h ⊢
        omega
      simpa [Memory.readBytes, Nat.add_comm 1 i, Nat.add_assoc] using ih (a + 1) i hi

/-- Little-endian bytes spell the value they were made from, cut to their width. -/
theorem ofLeBytes_leBytes (n v : Nat) : ofLeBytes (leBytes n v) = v % 256 ^ n := by
  induction n generalizing v with
  | zero => simp [leBytes, ofLeBytes, Nat.mod_one]
  | succ n ih =>
    rw [leBytes, ofLeBytes, ih, BitVec.toNat_ofNat, show 256 ^ (n + 1) = 256 * 256 ^ n from Nat.pow_succ', Nat.mod_mul]

/-- Reads of regions that hold the same bytes agree. -/
theorem readBytes_congr {m m' : Memory} (a : Nat) (n : Nat) (h : ∀ i < n, m.read (a + i) = m'.read (a + i)) :
    m.readBytes a n = m'.readBytes a n := by
  refine List.ext_getElem (by simp [length_readBytes]) fun i h₁ h₂ => ?_
  rw [getElem_readBytes, getElem_readBytes]
  exact h i (by simpa [length_readBytes] using h₁)

/-- A region whose bytes are those of a list reads as that list. -/
theorem readBytes_eq (m : Memory) (a : Nat) (bs : List Byte)
    (h : ∀ (i : Nat) (hi : i < bs.length), m.read (a + i) = bs[i]) : m.readBytes a bs.length = bs :=
  List.ext_getElem (length_readBytes m a _) fun i h₁ h₂ => by rw [getElem_readBytes]; exact h i h₂

end Sys2Proof.Machine
end

