-- ==== Sys2Proof/Laws/State.lean ====
section
/-! SUPPORT. What each update of the state does to each field: one lemma per field per update. -/

namespace Sys2Proof.Machine

variable (s : State)

/-! ### `State.setReg` -/

@[simp] theorem setReg_cfg (r : Reg) (v : Word) : (s.setReg r v).cfg = s.cfg := rfl
@[simp] theorem setReg_mode (r : Reg) (v : Word) : (s.setReg r v).mode = s.mode := rfl
@[simp] theorem setReg_pagingOn (r : Reg) (v : Word) : (s.setReg r v).pagingOn = s.pagingOn := rfl
@[simp] theorem setReg_sgx1Present (r : Reg) (v : Word) : (s.setReg r v).sgx1Present = s.sgx1Present := rfl
@[simp] theorem setReg_sgx1Enabled (r : Reg) (v : Word) : (s.setReg r v).sgx1Enabled = s.sgx1Enabled := rfl
@[simp] theorem setReg_insideEnclave (r : Reg) (v : Word) : (s.setReg r v).insideEnclave = s.insideEnclave := rfl
@[simp] theorem setReg_otherAgents (r : Reg) (v : Word) : (s.setReg r v).otherAgents = s.otherAgents := rfl
@[simp] theorem setReg_regs (r : Reg) (v : Word) : (s.setReg r v).regs = s.regs.set r v := rfl
@[simp] theorem setReg_rip (r : Reg) (v : Word) : (s.setReg r v).rip = s.rip := rfl
@[simp] theorem setReg_rflags (r : Reg) (v : Word) : (s.setReg r v).rflags = s.rflags := rfl
@[simp] theorem setReg_cpl (r : Reg) (v : Word) : (s.setReg r v).cpl = s.cpl := rfl
@[simp] theorem setReg_ds (r : Reg) (v : Word) : (s.setReg r v).ds = s.ds := rfl
@[simp] theorem setReg_paging (r : Reg) (v : Word) : (s.setReg r v).paging = s.paging := rfl
@[simp] theorem setReg_vmxCond (r : Reg) (v : Word) : (s.setReg r v).vmxCond = s.vmxCond := rfl
@[simp] theorem setReg_epcVirtExtensions (r : Reg) (v : Word) :
    (s.setReg r v).epcVirtExtensions = s.epcVirtExtensions := rfl
@[simp] theorem setReg_vmcs (r : Reg) (v : Word) : (s.setReg r v).vmcs = s.vmcs := rfl
@[simp] theorem setReg_crBasePk (r : Reg) (v : Word) : (s.setReg r v).crBasePk = s.crBasePk := rfl
@[simp] theorem setReg_epc (r : Reg) (v : Word) : (s.setReg r v).epc = s.epc := rfl
@[simp] theorem setReg_mem (r : Reg) (v : Word) : (s.setReg r v).mem = s.mem := rfl
@[simp] theorem setReg_env (r : Reg) (v : Word) : (s.setReg r v).env = s.env := rfl
@[simp] theorem setReg_drawCount (r : Reg) (v : Word) : (s.setReg r v).drawCount = s.drawCount := rfl
@[simp] theorem setReg_vmExited (r : Reg) (v : Word) : (s.setReg r v).vmExited = s.vmExited := rfl
@[simp] theorem setReg_ewbWritten (r : Reg) (v : Word) : (s.setReg r v).ewbWritten = s.ewbWritten := rfl

/-! ### `State.setFlag` -/

@[simp] theorem setFlag_cfg (f : StatusFlag) (b : Bool) : (s.setFlag f b).cfg = s.cfg := rfl
@[simp] theorem setFlag_mode (f : StatusFlag) (b : Bool) : (s.setFlag f b).mode = s.mode := rfl
@[simp] theorem setFlag_pagingOn (f : StatusFlag) (b : Bool) : (s.setFlag f b).pagingOn = s.pagingOn := rfl
@[simp] theorem setFlag_sgx1Present (f : StatusFlag) (b : Bool) : (s.setFlag f b).sgx1Present = s.sgx1Present := rfl
@[simp] theorem setFlag_sgx1Enabled (f : StatusFlag) (b : Bool) : (s.setFlag f b).sgx1Enabled = s.sgx1Enabled := rfl
@[simp] theorem setFlag_insideEnclave (f : StatusFlag) (b : Bool) :
    (s.setFlag f b).insideEnclave = s.insideEnclave := rfl
@[simp] theorem setFlag_otherAgents (f : StatusFlag) (b : Bool) : (s.setFlag f b).otherAgents = s.otherAgents := rfl
@[simp] theorem setFlag_regs (f : StatusFlag) (b : Bool) : (s.setFlag f b).regs = s.regs := rfl
@[simp] theorem setFlag_rip (f : StatusFlag) (b : Bool) : (s.setFlag f b).rip = s.rip := rfl
@[simp] theorem setFlag_rflags (f : StatusFlag) (b : Bool) : (s.setFlag f b).rflags = withFlag s.rflags f b := rfl
@[simp] theorem setFlag_cpl (f : StatusFlag) (b : Bool) : (s.setFlag f b).cpl = s.cpl := rfl
@[simp] theorem setFlag_ds (f : StatusFlag) (b : Bool) : (s.setFlag f b).ds = s.ds := rfl
@[simp] theorem setFlag_paging (f : StatusFlag) (b : Bool) : (s.setFlag f b).paging = s.paging := rfl
@[simp] theorem setFlag_vmxCond (f : StatusFlag) (b : Bool) : (s.setFlag f b).vmxCond = s.vmxCond := rfl
@[simp] theorem setFlag_epcVirtExtensions (f : StatusFlag) (b : Bool) :
    (s.setFlag f b).epcVirtExtensions = s.epcVirtExtensions := rfl
@[simp] theorem setFlag_vmcs (f : StatusFlag) (b : Bool) : (s.setFlag f b).vmcs = s.vmcs := rfl
@[simp] theorem setFlag_crBasePk (f : StatusFlag) (b : Bool) : (s.setFlag f b).crBasePk = s.crBasePk := rfl
@[simp] theorem setFlag_epc (f : StatusFlag) (b : Bool) : (s.setFlag f b).epc = s.epc := rfl
@[simp] theorem setFlag_mem (f : StatusFlag) (b : Bool) : (s.setFlag f b).mem = s.mem := rfl
@[simp] theorem setFlag_env (f : StatusFlag) (b : Bool) : (s.setFlag f b).env = s.env := rfl
@[simp] theorem setFlag_drawCount (f : StatusFlag) (b : Bool) : (s.setFlag f b).drawCount = s.drawCount := rfl
@[simp] theorem setFlag_vmExited (f : StatusFlag) (b : Bool) : (s.setFlag f b).vmExited = s.vmExited := rfl
@[simp] theorem setFlag_ewbWritten (f : StatusFlag) (b : Bool) : (s.setFlag f b).ewbWritten = s.ewbWritten := rfl

/-! ### `State.clearStatusFlags` -/

@[simp] theorem clearStatusFlags_cfg : (s.clearStatusFlags).cfg = s.cfg := rfl
@[simp] theorem clearStatusFlags_mode : (s.clearStatusFlags).mode = s.mode := rfl
@[simp] theorem clearStatusFlags_pagingOn : (s.clearStatusFlags).pagingOn = s.pagingOn := rfl
@[simp] theorem clearStatusFlags_sgx1Present : (s.clearStatusFlags).sgx1Present = s.sgx1Present := rfl
@[simp] theorem clearStatusFlags_sgx1Enabled : (s.clearStatusFlags).sgx1Enabled = s.sgx1Enabled := rfl
@[simp] theorem clearStatusFlags_insideEnclave : (s.clearStatusFlags).insideEnclave = s.insideEnclave := rfl
@[simp] theorem clearStatusFlags_otherAgents : (s.clearStatusFlags).otherAgents = s.otherAgents := rfl
@[simp] theorem clearStatusFlags_regs : (s.clearStatusFlags).regs = s.regs := rfl
@[simp] theorem clearStatusFlags_rip : (s.clearStatusFlags).rip = s.rip := rfl
@[simp] theorem clearStatusFlags_rflags : (s.clearStatusFlags).rflags = clearedFlags s.rflags := rfl
@[simp] theorem clearStatusFlags_cpl : (s.clearStatusFlags).cpl = s.cpl := rfl
@[simp] theorem clearStatusFlags_ds : (s.clearStatusFlags).ds = s.ds := rfl
@[simp] theorem clearStatusFlags_paging : (s.clearStatusFlags).paging = s.paging := rfl
@[simp] theorem clearStatusFlags_vmxCond : (s.clearStatusFlags).vmxCond = s.vmxCond := rfl
@[simp] theorem clearStatusFlags_epcVirtExtensions :
    (s.clearStatusFlags).epcVirtExtensions = s.epcVirtExtensions := rfl
@[simp] theorem clearStatusFlags_vmcs : (s.clearStatusFlags).vmcs = s.vmcs := rfl
@[simp] theorem clearStatusFlags_crBasePk : (s.clearStatusFlags).crBasePk = s.crBasePk := rfl
@[simp] theorem clearStatusFlags_epc : (s.clearStatusFlags).epc = s.epc := rfl
@[simp] theorem clearStatusFlags_mem : (s.clearStatusFlags).mem = s.mem := rfl
@[simp] theorem clearStatusFlags_env : (s.clearStatusFlags).env = s.env := rfl
@[simp] theorem clearStatusFlags_drawCount : (s.clearStatusFlags).drawCount = s.drawCount := rfl
@[simp] theorem clearStatusFlags_vmExited : (s.clearStatusFlags).vmExited = s.vmExited := rfl
@[simp] theorem clearStatusFlags_ewbWritten : (s.clearStatusFlags).ewbWritten = s.ewbWritten := rfl

/-! ### `State.store` -/

@[simp] theorem store_cfg (ws : List Write) : (s.store ws).cfg = s.cfg := rfl
@[simp] theorem store_mode (ws : List Write) : (s.store ws).mode = s.mode := rfl
@[simp] theorem store_pagingOn (ws : List Write) : (s.store ws).pagingOn = s.pagingOn := rfl
@[simp] theorem store_sgx1Present (ws : List Write) : (s.store ws).sgx1Present = s.sgx1Present := rfl
@[simp] theorem store_sgx1Enabled (ws : List Write) : (s.store ws).sgx1Enabled = s.sgx1Enabled := rfl
@[simp] theorem store_insideEnclave (ws : List Write) : (s.store ws).insideEnclave = s.insideEnclave := rfl
@[simp] theorem store_otherAgents (ws : List Write) : (s.store ws).otherAgents = s.otherAgents := rfl
@[simp] theorem store_regs (ws : List Write) : (s.store ws).regs = s.regs := rfl
@[simp] theorem store_rip (ws : List Write) : (s.store ws).rip = s.rip := rfl
@[simp] theorem store_rflags (ws : List Write) : (s.store ws).rflags = s.rflags := rfl
@[simp] theorem store_cpl (ws : List Write) : (s.store ws).cpl = s.cpl := rfl
@[simp] theorem store_ds (ws : List Write) : (s.store ws).ds = s.ds := rfl
@[simp] theorem store_paging (ws : List Write) : (s.store ws).paging = s.paging := rfl
@[simp] theorem store_vmxCond (ws : List Write) : (s.store ws).vmxCond = s.vmxCond := rfl
@[simp] theorem store_epcVirtExtensions (ws : List Write) :
    (s.store ws).epcVirtExtensions = s.epcVirtExtensions := rfl
@[simp] theorem store_vmcs (ws : List Write) : (s.store ws).vmcs = s.vmcs := rfl
@[simp] theorem store_crBasePk (ws : List Write) : (s.store ws).crBasePk = s.crBasePk := rfl
@[simp] theorem store_epc (ws : List Write) : (s.store ws).epc = s.epc := rfl
@[simp] theorem store_mem (ws : List Write) : (s.store ws).mem = s.mem.applyWrites ws := rfl
@[simp] theorem store_env (ws : List Write) : (s.store ws).env = s.env := rfl
@[simp] theorem store_drawCount (ws : List Write) : (s.store ws).drawCount = s.drawCount := rfl
@[simp] theorem store_vmExited (ws : List Write) : (s.store ws).vmExited = s.vmExited := rfl
@[simp] theorem store_ewbWritten (ws : List Write) :
    (s.store ws).ewbWritten = s.ewbWritten ++ ws.map fun w => (w.address, w.bytes.length) := rfl

/-! ### `State.invalidate` -/

@[simp] theorem invalidate_cfg (p : Nat) : (s.invalidate p).cfg = s.cfg := rfl
@[simp] theorem invalidate_mode (p : Nat) : (s.invalidate p).mode = s.mode := rfl
@[simp] theorem invalidate_pagingOn (p : Nat) : (s.invalidate p).pagingOn = s.pagingOn := rfl
@[simp] theorem invalidate_sgx1Present (p : Nat) : (s.invalidate p).sgx1Present = s.sgx1Present := rfl
@[simp] theorem invalidate_sgx1Enabled (p : Nat) : (s.invalidate p).sgx1Enabled = s.sgx1Enabled := rfl
@[simp] theorem invalidate_insideEnclave (p : Nat) : (s.invalidate p).insideEnclave = s.insideEnclave := rfl
@[simp] theorem invalidate_otherAgents (p : Nat) : (s.invalidate p).otherAgents = s.otherAgents := rfl
@[simp] theorem invalidate_regs (p : Nat) : (s.invalidate p).regs = s.regs := rfl
@[simp] theorem invalidate_rip (p : Nat) : (s.invalidate p).rip = s.rip := rfl
@[simp] theorem invalidate_rflags (p : Nat) : (s.invalidate p).rflags = s.rflags := rfl
@[simp] theorem invalidate_cpl (p : Nat) : (s.invalidate p).cpl = s.cpl := rfl
@[simp] theorem invalidate_ds (p : Nat) : (s.invalidate p).ds = s.ds := rfl
@[simp] theorem invalidate_paging (p : Nat) : (s.invalidate p).paging = s.paging := rfl
@[simp] theorem invalidate_vmxCond (p : Nat) : (s.invalidate p).vmxCond = s.vmxCond := rfl
@[simp] theorem invalidate_epcVirtExtensions (p : Nat) :
    (s.invalidate p).epcVirtExtensions = s.epcVirtExtensions := rfl
@[simp] theorem invalidate_vmcs (p : Nat) : (s.invalidate p).vmcs = s.vmcs := rfl
@[simp] theorem invalidate_crBasePk (p : Nat) : (s.invalidate p).crBasePk = s.crBasePk := rfl
@[simp] theorem invalidate_epc (p : Nat) :
    (s.invalidate p).epc = s.epc.map fun e => if e.1 = p then (e.1, e.2.invalidated) else e := rfl
@[simp] theorem invalidate_mem (p : Nat) : (s.invalidate p).mem = s.mem := rfl
@[simp] theorem invalidate_env (p : Nat) : (s.invalidate p).env = s.env := rfl
@[simp] theorem invalidate_drawCount (p : Nat) : (s.invalidate p).drawCount = s.drawCount := rfl
@[simp] theorem invalidate_vmExited (p : Nat) : (s.invalidate p).vmExited = s.vmExited := rfl
@[simp] theorem invalidate_ewbWritten (p : Nat) : (s.invalidate p).ewbWritten = s.ewbWritten := rfl

/-! ### `State.nextDraws` -/

@[simp] theorem nextDraws_cfg : (s.nextDraws).cfg = s.cfg := rfl
@[simp] theorem nextDraws_mode : (s.nextDraws).mode = s.mode := rfl
@[simp] theorem nextDraws_pagingOn : (s.nextDraws).pagingOn = s.pagingOn := rfl
@[simp] theorem nextDraws_sgx1Present : (s.nextDraws).sgx1Present = s.sgx1Present := rfl
@[simp] theorem nextDraws_sgx1Enabled : (s.nextDraws).sgx1Enabled = s.sgx1Enabled := rfl
@[simp] theorem nextDraws_insideEnclave : (s.nextDraws).insideEnclave = s.insideEnclave := rfl
@[simp] theorem nextDraws_otherAgents : (s.nextDraws).otherAgents = s.otherAgents := rfl
@[simp] theorem nextDraws_regs : (s.nextDraws).regs = s.regs := rfl
@[simp] theorem nextDraws_rip : (s.nextDraws).rip = s.rip := rfl
@[simp] theorem nextDraws_rflags : (s.nextDraws).rflags = s.rflags := rfl
@[simp] theorem nextDraws_cpl : (s.nextDraws).cpl = s.cpl := rfl
@[simp] theorem nextDraws_ds : (s.nextDraws).ds = s.ds := rfl
@[simp] theorem nextDraws_paging : (s.nextDraws).paging = s.paging := rfl
@[simp] theorem nextDraws_vmxCond : (s.nextDraws).vmxCond = s.vmxCond := rfl
@[simp] theorem nextDraws_epcVirtExtensions : (s.nextDraws).epcVirtExtensions = s.epcVirtExtensions := rfl
@[simp] theorem nextDraws_vmcs : (s.nextDraws).vmcs = s.vmcs := rfl
@[simp] theorem nextDraws_crBasePk : (s.nextDraws).crBasePk = s.crBasePk := rfl
@[simp] theorem nextDraws_epc : (s.nextDraws).epc = s.epc := rfl
@[simp] theorem nextDraws_mem : (s.nextDraws).mem = s.mem := rfl
@[simp] theorem nextDraws_env : (s.nextDraws).env = Config.freeEnvironment (s.drawCount + 1) := rfl
@[simp] theorem nextDraws_drawCount : (s.nextDraws).drawCount = s.drawCount + 1 := rfl
@[simp] theorem nextDraws_vmExited : (s.nextDraws).vmExited = s.vmExited := rfl
@[simp] theorem nextDraws_ewbWritten : (s.nextDraws).ewbWritten = s.ewbWritten := rfl

/-! ### `State.complete` -/

@[simp] theorem complete_cfg : (s.complete).cfg = s.cfg := rfl
@[simp] theorem complete_mode : (s.complete).mode = s.mode := rfl
@[simp] theorem complete_pagingOn : (s.complete).pagingOn = s.pagingOn := rfl
@[simp] theorem complete_sgx1Present : (s.complete).sgx1Present = s.sgx1Present := rfl
@[simp] theorem complete_sgx1Enabled : (s.complete).sgx1Enabled = s.sgx1Enabled := rfl
@[simp] theorem complete_insideEnclave : (s.complete).insideEnclave = s.insideEnclave := rfl
@[simp] theorem complete_otherAgents : (s.complete).otherAgents = s.otherAgents := rfl
@[simp] theorem complete_regs : (s.complete).regs = s.regs := rfl
@[simp] theorem complete_rip : (s.complete).rip = s.rip + BitVec.ofNat 64 s.cfg.ilen := rfl
@[simp] theorem complete_rflags : (s.complete).rflags = s.rflags := rfl
@[simp] theorem complete_cpl : (s.complete).cpl = s.cpl := rfl
@[simp] theorem complete_ds : (s.complete).ds = s.ds := rfl
@[simp] theorem complete_paging : (s.complete).paging = s.paging := rfl
@[simp] theorem complete_vmxCond : (s.complete).vmxCond = s.vmxCond := rfl
@[simp] theorem complete_epcVirtExtensions : (s.complete).epcVirtExtensions = s.epcVirtExtensions := rfl
@[simp] theorem complete_vmcs : (s.complete).vmcs = s.vmcs := rfl
@[simp] theorem complete_crBasePk : (s.complete).crBasePk = s.crBasePk := rfl
@[simp] theorem complete_epc : (s.complete).epc = s.epc := rfl
@[simp] theorem complete_mem : (s.complete).mem = s.mem := rfl
@[simp] theorem complete_env : (s.complete).env = Config.freeEnvironment (s.drawCount + 1) := rfl
@[simp] theorem complete_drawCount : (s.complete).drawCount = s.drawCount + 1 := rfl
@[simp] theorem complete_vmExited : (s.complete).vmExited = s.vmExited := rfl
@[simp] theorem complete_ewbWritten : (s.complete).ewbWritten = s.ewbWritten := rfl

/-! ### `State.deliverVmExit` -/

@[simp] theorem deliverVmExit_cfg (la : Word) (pa : Nat) : (s.deliverVmExit la pa).cfg = s.cfg := rfl
@[simp] theorem deliverVmExit_mode (la : Word) (pa : Nat) : (s.deliverVmExit la pa).mode = s.mode := rfl
@[simp] theorem deliverVmExit_pagingOn (la : Word) (pa : Nat) : (s.deliverVmExit la pa).pagingOn = s.pagingOn := rfl
@[simp] theorem deliverVmExit_sgx1Present (la : Word) (pa : Nat) :
    (s.deliverVmExit la pa).sgx1Present = s.sgx1Present := rfl
@[simp] theorem deliverVmExit_sgx1Enabled (la : Word) (pa : Nat) :
    (s.deliverVmExit la pa).sgx1Enabled = s.sgx1Enabled := rfl
@[simp] theorem deliverVmExit_insideEnclave (la : Word) (pa : Nat) :
    (s.deliverVmExit la pa).insideEnclave = s.insideEnclave := rfl
@[simp] theorem deliverVmExit_otherAgents (la : Word) (pa : Nat) :
    (s.deliverVmExit la pa).otherAgents = s.otherAgents := rfl
@[simp] theorem deliverVmExit_regs (la : Word) (pa : Nat) : (s.deliverVmExit la pa).regs = s.regs := rfl
@[simp] theorem deliverVmExit_rip (la : Word) (pa : Nat) : (s.deliverVmExit la pa).rip = s.rip := rfl
@[simp] theorem deliverVmExit_rflags (la : Word) (pa : Nat) : (s.deliverVmExit la pa).rflags = s.rflags := rfl
@[simp] theorem deliverVmExit_cpl (la : Word) (pa : Nat) : (s.deliverVmExit la pa).cpl = s.cpl := rfl
@[simp] theorem deliverVmExit_ds (la : Word) (pa : Nat) : (s.deliverVmExit la pa).ds = s.ds := rfl
@[simp] theorem deliverVmExit_paging (la : Word) (pa : Nat) : (s.deliverVmExit la pa).paging = s.paging := rfl
@[simp] theorem deliverVmExit_vmxCond (la : Word) (pa : Nat) : (s.deliverVmExit la pa).vmxCond = s.vmxCond := rfl
@[simp] theorem deliverVmExit_epcVirtExtensions (la : Word) (pa : Nat) :
    (s.deliverVmExit la pa).epcVirtExtensions = s.epcVirtExtensions := rfl
@[simp] theorem deliverVmExit_vmcs (la : Word) (pa : Nat) :
    (s.deliverVmExit la pa).vmcs = conflictVmcs s.cfg la pa := rfl
@[simp] theorem deliverVmExit_crBasePk (la : Word) (pa : Nat) : (s.deliverVmExit la pa).crBasePk = s.crBasePk := rfl
@[simp] theorem deliverVmExit_epc (la : Word) (pa : Nat) : (s.deliverVmExit la pa).epc = s.epc := rfl
@[simp] theorem deliverVmExit_mem (la : Word) (pa : Nat) : (s.deliverVmExit la pa).mem = s.mem := rfl
@[simp] theorem deliverVmExit_env (la : Word) (pa : Nat) :
    (s.deliverVmExit la pa).env = Config.freeEnvironment (s.drawCount + 1) := rfl
@[simp] theorem deliverVmExit_drawCount (la : Word) (pa : Nat) :
    (s.deliverVmExit la pa).drawCount = s.drawCount + 1 := rfl
@[simp] theorem deliverVmExit_vmExited (la : Word) (pa : Nat) : (s.deliverVmExit la pa).vmExited = true := rfl
@[simp] theorem deliverVmExit_ewbWritten (la : Word) (pa : Nat) :
    (s.deliverVmExit la pa).ewbWritten = s.ewbWritten := rfl

/-! ### The register file -/

@[simp] theorem set_rax_rax (r : Regs) (v : Word) : (r.set .rax v).rax = v := rfl
@[simp] theorem set_rax_rbx (r : Regs) (v : Word) : (r.set .rax v).rbx = r.rbx := rfl
@[simp] theorem set_rax_rcx (r : Regs) (v : Word) : (r.set .rax v).rcx = r.rcx := rfl
@[simp] theorem set_rax_rdx (r : Regs) (v : Word) : (r.set .rax v).rdx = r.rdx := rfl
@[simp] theorem reg_rax : s.reg .rax = s.regs.rax := rfl
@[simp] theorem reg_rbx : s.reg .rbx = s.regs.rbx := rfl
@[simp] theorem reg_rcx : s.reg .rcx = s.regs.rcx := rfl
@[simp] theorem reg_rdx : s.reg .rdx = s.regs.rdx := rfl

end Sys2Proof.Machine
end

