-- ==== Sys2Proof/Machine/Run.lean ====
section
/-! DEFINITION. A program of `ENCLS` instructions and the end of its run (rule R153, section 4 of 95_test_vectors.md).
It is no step of the machine; `step` never calls it (log 45). -/

namespace Sys2Proof.Machine

/-- A program: `ENCLS` instructions with environment steps between them (rule R153). -/
structure Program where
  /-- The address after the last `ENCLS`. -/
  last : Word
  /-- For each `ENCLS` in turn, what the environment step before it writes; nothing where there is no such step. -/
  writes : List (List EnvWrite)
  deriving DecidableEq, Repr

/-- What ended a run (rule R153). -/
inductive RunEnd where
  /-- `RIP` reached the address after the last `ENCLS`. -/
  | completed
  | fault (f : Fault)
  | vmExit
  | refusal (r : Refusal)
  /-- Every listed `ENCLS` was executed and `RIP` is not the address after the last one: the run has not ended. -/
  | running
  deriving DecidableEq, Repr

/-- A run: what ended it, and the state it ended in; at a fault or a refusal that is the state before the instruction
(rule R137). -/
structure RunResult where
  ending : RunEnd
  state : State
  deriving DecidableEq, Repr

/-- One `ENCLS` of a program: the environment step before it, then a step of the machine. The run ends at a fault, a VM
exit or a refusal, and goes on from the next state otherwise (rules R138, R139, R153). -/
def State.runOne (s : State) (ws : List EnvWrite) : RunResult :=
  match step (s.envStep ws) with
  | .next t => { ending := if t.vmExited then .vmExit else .running, state := t }
  | .fault f => { ending := .fault f, state := s.envStep ws }
  | .refused r => { ending := .refusal r, state := s.envStep ws }

/-- The `ENCLS` instructions of a program from a state on, until the run ends (rule R153). DESIGN CHOICE: RIP is
compared with the address after the last `ENCLS` before each environment step and where the list is used up, and not
between an environment step and the `ENCLS` after it; so an environment step that itself leaves RIP at that address does
not end the run, and a run that begins with RIP there ends at once (log 45). -/
def State.runList (last : Word) (s : State) : List (List EnvWrite) → RunResult
  | [] => { ending := if s.rip = last then .completed else .running, state := s }
  | ws :: rest =>
    if s.rip = last then { ending := .completed, state := s }
    else if (s.runOne ws).ending = .running then State.runList last (s.runOne ws).state rest
    else s.runOne ws

/-- The run of a program from a start state (rule R153). -/
def State.run (s : State) (p : Program) : RunResult := s.runList p.last p.writes

end Sys2Proof.Machine
end

