-- ==== Sys2Proof/Laws/Environment.lean ====
section
/-! SUPPORT. What an environment step does, and how a run ends. -/

namespace Sys2Proof.Machine

/-! ### Fields of an EPCM entry -/

@[simp] theorem field_setField (e : EpcmEntry) (f : EpcmField) : (e.setField f).field f.name = f := by cases f <;> rfl

@[simp] theorem field_setField_of_ne (e : EpcmEntry) (f : EpcmField) {k : EpcmFieldName} (h : f.name ≠ k) :
    (e.setField f).field k = e.field k := by
  cases f <;> cases k <;> first | rfl | exact absurd rfl h

/-! ### One environment write -/

theorem regularRun_iff (s : State) (a n : Nat) : s.regularRun a n = true ↔ ∀ i, i < n → s.inEpc (a + i) = false := by
  simp [State.regularRun]

@[simp] theorem envStep_nil (s : State) : s.envStep [] = s := rfl

@[simp] theorem envStep_cons (s : State) (w : EnvWrite) (ws : List EnvWrite) :
    s.envStep (w :: ws) = (s.envWrite w).envStep ws := rfl

@[simp] theorem envStep_append (s : State) (ws vs : List EnvWrite) :
    s.envStep (ws ++ vs) = (s.envStep ws).envStep vs := List.foldl_append

/-- An environment write leaves alone what none names. -/
theorem envWrite_kept (s : State) (w : EnvWrite) : EnvKept s (s.envWrite w) := by
  cases w with
  | bytes a bs => unfold State.envWrite; dsimp only; split <;> constructor <;> rfl
  | register r v => constructor <;> rfl
  | rip v => constructor <;> rfl
  | epcmField p f => constructor <;> rfl

theorem envWrite_reg (s : State) (w : EnvWrite) (r : Reg) (h : ∀ v, w ≠ .register r v) :
    (s.envWrite w).reg r = s.reg r := by
  cases w with
  | register q v => cases q <;> cases r <;> first | rfl | exact absurd rfl (h v)
  | rip v => rfl
  | bytes a bs => unfold State.envWrite; dsimp only; split <;> rfl
  | epcmField p f => rfl

theorem envWrite_rip (s : State) (w : EnvWrite) (h : ∀ v, w ≠ .rip v) : (s.envWrite w).rip = s.rip := by
  cases w with
  | register q v => rfl
  | rip v => exact absurd rfl (h v)
  | bytes a bs => unfold State.envWrite; dsimp only; split <;> rfl
  | epcmField p f => rfl

/-- A byte no write names reads as before. -/
theorem envWrite_read (s : State) (w : EnvWrite) (x : Nat)
    (h : ∀ a bs, w = .bytes a bs → ¬(a ≤ x ∧ x < a + bs.length)) : (s.envWrite w).mem.read x = s.mem.read x := by
  cases w with
  | register q v => rfl
  | rip v => rfl
  | bytes a bs =>
    unfold State.envWrite
    dsimp only
    split
    · exact read_writeBytes_outside _ _ _ _ (h a bs rfl)
    · rfl
  | epcmField p f => rfl

/-- A byte of the EPC reads as before, named or not. -/
theorem envWrite_read_epc (s : State) (w : EnvWrite) (x : Nat) (h : s.inEpc x = true) :
    (s.envWrite w).mem.read x = s.mem.read x := by
  cases w with
  | register q v => rfl
  | rip v => rfl
  | bytes a bs =>
    unfold State.envWrite
    dsimp only
    split
    · rename_i hr
      refine read_writeBytes_outside _ _ _ _ fun ⟨h1, h2⟩ => ?_
      have := (regularRun_iff s a bs.length).mp hr (x - a) (by omega)
      rw [show a + (x - a) = x by omega, h] at this
      cases this
    · rfl
  | epcmField p f => rfl

theorem find_setField (l : Epc) (p q : Nat) (f : EpcmField) :
    ((l.map fun e => if e.1 = p then (e.1, { e.2 with entry := e.2.entry.setField f }) else e).find? fun e =>
        e.1 == q).map (·.2) =
      ((l.find? fun e => e.1 == q).map (·.2)).map fun x =>
        if q = p then { x with entry := x.entry.setField f } else x := by
  induction l with
  | nil => rfl
  | cons e l ih =>
    by_cases he : e.1 = q
    · subst he
      by_cases hp : e.1 = p <;> simp [hp]
    · have hb : (e.1 == q) = false := by simpa using he
      have hb' : ((if e.1 = p then (e.1, { e.2 with entry := e.2.entry.setField f }) else e).1 == q) = false := by
        split <;> exact hb
      rw [List.map_cons, List.find?_cons, hb', List.find?_cons, hb]
      exact ih

/-- The EPC page at a page address after an environment write: its entry with the named field, if the write names one
of that page. -/
theorem envWrite_epcPage? (s : State) (w : EnvWrite) (q : Nat) :
    (s.envWrite w).epcPage? q =
      match w with
      | .register _ _ | .rip _ | .bytes _ _ => s.epcPage? q
      | .epcmField p f =>
        (s.epcPage? q).map fun x => if q = p then { x with entry := x.entry.setField f } else x := by
  cases w with
  | register r v => rfl
  | rip v => rfl
  | bytes a bs => unfold State.envWrite; dsimp only; split <;> rfl
  | epcmField p f => exact find_setField s.epc p q f

/-! ### How a run ends (rule R153) -/

/-- A run that completes ends with `RIP` at the address after the last `ENCLS`. -/
theorem rip_of_completed (s : State) (last : Word) (ws : List (List EnvWrite))
    (h : (s.runList last ws).ending = .completed) : (s.runList last ws).state.rip = last := by
  induction ws generalizing s with
  | nil =>
    unfold State.runList at h ⊢
    dsimp only at h ⊢
    split at h <;> [assumption; cases h]
  | cons w ws ih =>
    unfold State.runList at h ⊢
    split at h <;> rename_i h1
    · rw [if_pos h1]
      exact h1
    · rw [if_neg h1]
      split at h <;> rename_i h2
      · rw [if_pos h2]
        exact ih _ h
      · exfalso
        unfold State.runOne at h
        split at h
        · dsimp only at h
          split at h <;> cases h
        · cases h
        · cases h

/-- A run ends at the first fault, in the state before the instruction. -/
theorem runList_of_fault {s : State} {last : Word} {w : List EnvWrite} (ws : List (List EnvWrite)) {f : Fault}
    (hr : s.rip ≠ last) (h : step (s.envStep w) = .fault f) :
    s.runList last (w :: ws) = { ending := .fault f, state := s.envStep w } := by
  simp [State.runList, State.runOne, hr, h]

/-- A run ends at the first refusal. -/
theorem runList_of_refused {s : State} {last : Word} {w : List EnvWrite} (ws : List (List EnvWrite)) {r : Refusal}
    (hr : s.rip ≠ last) (h : step (s.envStep w) = .refused r) :
    s.runList last (w :: ws) = { ending := .refusal r, state := s.envStep w } := by
  simp [State.runList, State.runOne, hr, h]

/-- A run ends at the first VM exit. -/
theorem runList_of_vmExit {s t : State} {last : Word} {w : List EnvWrite} (ws : List (List EnvWrite))
    (hr : s.rip ≠ last) (h : step (s.envStep w) = .next t) (hx : t.vmExited = true) :
    s.runList last (w :: ws) = { ending := .vmExit, state := t } := by
  simp [State.runList, State.runOne, hr, h, hx]

/-- After a completed `ENCLS` a run goes on with the rest of the program. -/
theorem runList_of_next {s t : State} {last : Word} {w : List EnvWrite} (ws : List (List EnvWrite))
    (hr : s.rip ≠ last) (h : step (s.envStep w) = .next t) (hx : t.vmExited = false) :
    s.runList last (w :: ws) = t.runList last ws := by
  simp [State.runList, State.runOne, hr, h, hx]

end Sys2Proof.Machine
end

