-- ==== Sys2Proof/Laws/Operands.lean ====
section
/-! SUPPORT. What the operand operations can answer. -/

namespace Sys2Proof.Machine

@[simp] theorem require_eq_ok_iff (b : Bool) (e : Stop) (u : Unit) : require b e = .ok u ↔ b = true := by
  cases b <;> simp [require]

@[simp] theorem require_true (e : Stop) : require true e = .ok () := rfl

@[simp] theorem require_false (e : Stop) : require false e = .error e := rfl

/-- A sequence answers exactly when its first part answers and the rest does on that answer. -/
theorem bind_eq_ok_iff {α β : Type} (x : Except Stop α) (f : α → Except Stop β) (b : β) :
    (x >>= f) = .ok b ↔ ∃ a, x = .ok a ∧ f a = .ok b := by
  cases x <;> simp [bind, Except.bind]

/-- A sequence whose first part answers goes on with the rest. -/
theorem bind_of_ok {α β : Type} {x : Except Stop α} {a : α} (h : x = .ok a) (f : α → Except Stop β) :
    (x >>= f) = f a := by
  subst h
  rfl

/-- A sequence whose first part stops stops there. -/
theorem bind_of_error {α β : Type} {x : Except Stop α} {e : Stop} (h : x = .error e) (f : α → Except Stop β) :
    (x >>= f) = .error e := by
  subst h
  rfl

/-- The stop of a sequence is that of its first part, or that of the rest. -/
theorem bind_eq_error_iff {α β : Type} (x : Except Stop α) (f : α → Except Stop β) (e : Stop) :
    (x >>= f) = .error e ↔ x = .error e ∨ ∃ a, x = .ok a ∧ f a = .error e := by
  cases x <;> simp [bind, Except.bind]

theorem require_eq_error_iff (b : Bool) (e e' : Stop) : require b e = .error e' ↔ b = false ∧ e' = e := by
  cases b <;> simp [require, eq_comm]

/-- Translation keeps the offset in the page (rule R48). -/
theorem translate_offset {s : State} {la : Word} {acc : Access} {pa : Nat} (h : s.translate la acc = .ok pa) :
    pa % 4096 = la.toNat % 4096 := by
  unfold State.translate at h
  split at h
  · simp only [Except.ok.injEq] at h
    omega
  · cases h

/-- An operand resolves to an address exactly when it translates to it for writing. -/
theorem resolve_eq_ok_iff (s : State) (o : Operand) (pa : Nat) :
    s.resolve o = .ok pa ↔ s.translate o.la .write = .ok pa := by
  unfold State.resolve
  split <;> rename_i h <;> simp [h]

/-- An operand resolves within the EPC exactly when it translates to an address in the EPC. -/
theorem resolveInEpc_eq_ok_iff (s : State) (o : Operand) (pa : Nat) :
    s.resolveInEpc o = .ok pa ↔ s.translate o.la .write = .ok pa ∧ s.inEpc pa = true := by
  unfold State.resolveInEpc
  simp only [bind_eq_ok_iff, require_eq_ok_iff, resolve_eq_ok_iff, pure, Except.pure, Except.ok.injEq]
  constructor
  · rintro ⟨a, h, _, hi, rfl⟩
    exact ⟨h, hi⟩
  · rintro ⟨h, hi⟩
    exact ⟨pa, h, (), hi, rfl⟩

/-- An aligned operand of a size that divides 4096 stays inside its page (rule R63). -/
theorem operand_in_page {la n : Nat} (hn : n ∣ 4096) (h : la % n = 0) : la % 4096 + n ≤ 4096 := by
  obtain ⟨k, hk⟩ := hn
  have hn0 : 0 < n := by
    rcases Nat.eq_zero_or_pos n with rfl | h0
    · simp at hk
    · exact h0
  have hd : n ∣ la % 4096 := (Nat.dvd_mod_iff ⟨k, hk⟩).mpr (Nat.dvd_of_mod_eq_zero h)
  obtain ⟨j, hj⟩ := hd
  have hlt : la % 4096 < 4096 := Nat.mod_lt _ (by decide)
  rw [hj, hk] at hlt
  have : j < k := Nat.lt_of_mul_lt_mul_left hlt
  calc la % 4096 + n = n * (j + 1) := by rw [hj]; ring
    _ ≤ n * k := Nat.mul_le_mul_left n this
    _ = 4096 := hk.symm

end Sys2Proof.Machine
end

