-- ==== Sys2Proof/Laws/Ewb.lean ====
section
/-! SUPPORT. What each group of EWB's steps can answer, what the whole instruction can answer, and what its writes
cover. -/

namespace Sys2Proof.Machine

theorem gpUnless_eq_ok_iff (b : Bool) (u : Unit) : gpUnless b = .ok u ↔ b = true := require_eq_ok_iff b _ u

theorem aligned_iff (la : Word) (n : Nat) : aligned la n = true ↔ la.toNat % n = 0 := by simp [aligned]

theorem regionsDisjoint_iff (a n b k : Nat) : regionsDisjoint a n b k = true ↔ a + n ≤ b ∨ b + k ≤ a := by
  simp [regionsDisjoint]

/-- The EPCM is total exactly when its keys rise and are page addresses. -/
theorem total_iff (m : Epc) : Epc.total m = true ↔ m.Pairwise (fun a b => a.1 < b.1) ∧ ∀ e ∈ m, e.1 % 4096 = 0 := by
  simp [Epc.total]

theorem typeNamed_iff (e : EpcmEntry) : e.typeNamed = true ↔ (e.valid = true → namedType e.pt = true) := by
  cases h : e.valid <;> simp [EpcmEntry.typeNamed, h]

theorem linkSound_iff (s : State) (e : EpcmEntry) :
    s.linkSound e = true ↔
      (e.valid = true → isChildType e.pt = true → ∃ p, e.enclaveSecs = some p ∧ s.isValidSecs p = true) := by
  cases h : e.valid <;> cases h' : isChildType e.pt <;> simp [State.linkSound, h, h', Option.any_eq_true]

/-- A test holds of all other pages exactly when it holds of every page that is not the source page. -/
theorem otherPages_iff (s : State) (p : EpcmEntry → Bool) :
    s.otherPages p = true ↔ ∀ e ∈ s.epc, s.sourcePage? ≠ some e.1 → p e.2.entry = true := by
  simp only [State.otherPages, List.all_eq_true, Bool.or_eq_true, beq_iff_eq]
  exact forall₂_congr fun _ _ => or_iff_not_imp_left

/-- The premises pass exactly on an admitted state. -/
theorem premises_eq_ok_iff (s : State) (u : Unit) : s.premises = .ok u ↔ Admitted s := by
  unfold State.premises
  simp only [bind_eq_ok_iff, require_eq_ok_iff, State.ripOk, Bool.not_eq_true', Bool.or_eq_true, beq_iff_eq,
    Bool.and_eq_true, decide_eq_true_eq, total_iff, otherPages_iff, typeNamed_iff, linkSound_iff]
  constructor
  · rintro ⟨_, h1, _, h2, _, h3, _, ⟨h4, h4'⟩, _, h5, _, h6, _, h7, _, ⟨h8, h8'⟩, _, h9, h10⟩
    refine ⟨h1, h2, h3, h4, h4', h5, h6, fun h => ?_, fun h => ?_, h8, h8', h9, h10⟩
    · simpa [h] using h7
    · simpa [h] using h7
  · rintro ⟨h1, h2, h3, h4, h4', h5, h6, h7, h7', h8, h8', h9, h10⟩
    refine ⟨(), h1, (), h2, (), h3, (), ⟨h4, h4'⟩, (), h5, (), h6, (), ?_, (), ⟨h8, h8'⟩, (), h9, h10⟩
    rcases h2 with h | h
    · simpa [h] using h7 h
    · simpa [h] using h7' h

/-- A state with the invariant meets the premises on the EPCM. -/
theorem epcm_premises_of_inv {s : State} (h : s.Inv) :
    Epc.total s.epc = true ∧ s.otherPages EpcmEntry.typeNamed = true ∧ s.otherPages s.linkSound = true := by
  simp only [total_iff, otherPages_iff, typeNamed_iff, linkSound_iff]
  exact ⟨⟨h.epcOrdered, h.epcAligned⟩, fun e he _ => h.types e he, fun e he _ => h.links e he⟩

/-- The privilege check passes exactly at CPL 0. -/
theorem privileged_eq_ok_iff (s : State) (u : Unit) : s.privileged = .ok u ↔ s.cpl = 0 := by
  simp [State.privileged]

/-- S1 to S5 answer exactly the operands that meet their conditions. -/
theorem ewbRegOperands_eq_ok_iff (s : State) (r : RegOperands) : ewbRegOperands s = .ok r ↔ RegsReady s r := by
  unfold ewbRegOperands
  simp only [bind_eq_ok_iff, gpUnless_eq_ok_iff, resolveInEpc_eq_ok_iff, Bool.and_eq_true, aligned_iff, bne_iff_ne,
    reg_rbx, reg_rcx, reg_rdx, pure, Except.pure, Except.ok.injEq]
  constructor
  · rintro ⟨_, ⟨h1, h2⟩, _, ⟨h3, h4⟩, a, ⟨h5, h6⟩, _, h7, _, h8, b, ⟨h9, h10⟩, _, h11, rfl⟩
    exact ⟨rfl, rfl, rfl, h1, h2, h3, h4, h5, h6, h7, h8, h9, h10, h11⟩
  · rintro ⟨e1, e2, e3, h1, h2, h3, h4, h5, h6, h7, h8, h9, h10, h11⟩
    obtain ⟨pi, src, va, a, b⟩ := r
    dsimp only at *
    subst e1 e2 e3
    exact ⟨(), ⟨h1, h2⟩, (), ⟨h3, h4⟩, a, ⟨h5, h6⟩, (), h7, (), h8, b, ⟨h9, h10⟩, (), h11, rfl⟩

/-- S6 to S8 answer exactly the operands that meet their conditions. -/
theorem ewbInfoOperands_eq_ok_iff (s : State) (r : RegOperands) (m : InfoOperands) :
    ewbInfoOperands s r = .ok m ↔ InfoReady s r m := by
  unfold ewbInfoOperands
  simp only [bind_eq_ok_iff, gpUnless_eq_ok_iff, require_eq_ok_iff, resolve_eq_ok_iff, Bool.and_eq_true, aligned_iff,
    beq_iff_eq, Bool.not_eq_true', regionsDisjoint_iff, pure, Except.pure, Except.ok.injEq]
  constructor
  · rintro ⟨a, h1, _, ⟨h2, h3⟩, _, ⟨h4, h5⟩, _, ⟨h6, h7⟩, b, h8, d, h9, _, ⟨⟨h10, h11⟩, h12⟩, _, ⟨⟨h13, h14⟩, h15⟩, rfl⟩
    exact ⟨h1, h2, h3, rfl, rfl, h4, h5, h6, h7, h8, h9, h10, h11, h12, h13, h14, h15⟩
  · rintro ⟨h1, h2, h3, e1, e2, h4, h5, h6, h7, h8, h9, h10, h11, h12, h13, h14, h15⟩
    obtain ⟨a, pcmd, out, b, d⟩ := m
    dsimp only at *
    subst e1 e2
    exact ⟨a, h1, (), ⟨h2, h3⟩, (), ⟨h4, h5⟩, (), ⟨h6, h7⟩, b, h8, d, h9, (), ⟨⟨h10, h11⟩, h12⟩, (), ⟨⟨h13, h14⟩, h15⟩, rfl⟩

/-- S9 and S10 pass exactly without a conflict. -/
theorem ewbConcurrency_eq_ok_iff (s : State) (r : RegOperands) (u : Unit) : ewbConcurrency s r = .ok u ↔ Quiet s r := by
  unfold ewbConcurrency
  simp only [bind_eq_ok_iff, gpUnless_eq_ok_iff, require_eq_ok_iff, Bool.and_eq_true, Bool.not_eq_true']
  constructor
  · rintro ⟨_, h1, _, h2, h3, h4⟩
    exact ⟨h1, h2, h3, h4⟩
  · rintro ⟨h1, h2, h3, h4⟩
    exact ⟨(), h1, (), h2, h3, h4⟩

theorem childKind_eq_ok_iff (s : State) (link : Option Nat) (k : SourceKind) :
    s.childKind link = .ok k ↔ ∃ p, k = .child p ∧ link = some p ∧ s.isValidSecs p = true := by
  cases link with
  | none => simp [State.childKind]
  | some q =>
    simp only [State.childKind, Option.some.injEq]
    split <;> rename_i hq
    · rw [Except.ok.injEq]
      constructor
      · rintro rfl
        exact ⟨q, rfl, rfl, hq⟩
      · rintro ⟨p, rfl, rfl, _⟩
        rfl
    · simp only [reduceCtorEq, false_iff, not_exists]
      rintro p ⟨_, rfl, h⟩
      exact hq h

/-- An entry is of a kind exactly when it says so. -/
theorem sourceKind_eq_ok_iff (s : State) (e : EpcmEntry) (k : SourceKind) : s.sourceKind e = .ok k ↔ KindIs s e k := by
  unfold State.sourceKind KindIs
  cases hp : e.pt <;> simp only [childKind_eq_ok_iff] <;> cases k <;> simp [isChildType]

theorem ewbBlockCheck_eq_ok_iff (s : State) (k : SourceKind) (u : Unit) :
    ewbBlockCheck s k = .ok u ↔ ∀ p, k = .child p → s.env.eblockCorrect = true := by
  cases k <;> simp [ewbBlockCheck, gpUnless_eq_ok_iff]

/-- S11 to S13 answer exactly the kind the source page's entry says. -/
theorem ewbSourceKind_eq_ok_iff (s : State) (r : RegOperands) (k : SourceKind) :
    ewbSourceKind s r = .ok k ↔ SourceReady s r k := by
  unfold ewbSourceKind
  simp only [bind_eq_ok_iff, require_eq_ok_iff, sourceKind_eq_ok_iff, ewbBlockCheck_eq_ok_iff, Bool.and_eq_true,
    beq_iff_eq, pure, Except.pure, Except.ok.injEq]
  constructor
  · rintro ⟨_, h1, _, ⟨h2, h3⟩, a, h4, _, h5, rfl⟩
    exact ⟨h1, h2, h3, h4, h5⟩
  · rintro ⟨h1, h2, h3, h4, h5⟩
    exact ⟨(), h1, (), ⟨h2, h3⟩, k, h4, (), h5, rfl⟩

/-- All that precedes the commit point passes exactly when everything rule R136 lists is in order. -/
theorem ewbChecks_eq_ok_iff (s : State) (c : EwbContext) : ewbChecks s = .ok c ↔ EwbReady s c := by
  unfold ewbChecks
  simp only [bind_eq_ok_iff, premises_eq_ok_iff, privileged_eq_ok_iff, ewbRegOperands_eq_ok_iff,
    ewbInfoOperands_eq_ok_iff, ewbConcurrency_eq_ok_iff, ewbSourceKind_eq_ok_iff, pure, Except.pure, Except.ok.injEq]
  constructor
  · rintro ⟨_, h1, _, h2, r, h3, m, h4, _, h5, k, h6, rfl⟩
    exact ⟨h1, h2, h3, h4, h5, h6⟩
  · rintro ⟨h1, h2, h3, h4, h5, h6⟩
    exact ⟨(), h1, (), h2, c.regs, h3, c.info, h4, (), h5, c.kind, h6, rfl⟩

/-- S15 to S17 answer ids exactly when the page may be evicted with them. -/
theorem ewbEvictable_eq_ok_iff (s : State) (c : EwbContext) (ids : EnclaveIds) :
    ewbEvictable s c = .ok ids ↔ Evictable s c ids := by
  have comm : ∀ v : EnclaveIds, (Except.ok v : Except Word EnclaveIds) = .ok ids ↔ ids = v := fun v => by
    rw [Except.ok.injEq]
    exact eq_comm
  unfold ewbEvictable Evictable
  cases c.kind with
  | child p => cases (s.epcm c.regs.paSrc).blocked <;> cases s.env.trackingCorrect <;> simp [comm]
  | secs =>
    cases s.hasChild (pageOf c.regs.paSrc) <;> cases s.vmxCond <;> cases s.epcVirtExtensions <;>
      by_cases h : s.secsVirtChildCnt (pageOf c.regs.paSrc) = 0 <;> simp [h, comm]
  | va => exact comm _

/-- A state that passes every check runs to the commit point. -/
theorem execEnclsEwb_of_ready {s : State} {c : EwbContext} (h : EwbReady s c) :
    execEnclsEwb s = .next (ewbCommit s c) := by
  rw [execEnclsEwb, (ewbChecks_eq_ok_iff s c).mpr h]

/-- The outcome of a stop among the premises. -/
theorem execEnclsEwb_of_premises {s : State} {e : Stop} (h : s.premises = .error e) : execEnclsEwb s = stopped s e := by
  rw [execEnclsEwb, ewbChecks, bind_of_error h]

/-- The outcome of a stop at the privilege check. -/
theorem execEnclsEwb_of_privileged {s : State} {e : Stop} (ha : Admitted s) (h : s.privileged = .error e) :
    execEnclsEwb s = stopped s e := by
  rw [execEnclsEwb, ewbChecks, bind_of_ok ((premises_eq_ok_iff s ()).mpr ha), bind_of_error h]

/-- The outcome of a stop in S1 to S5. -/
theorem execEnclsEwb_of_regOperands {s : State} {e : Stop} (ha : Admitted s) (hc : s.cpl = 0)
    (h : ewbRegOperands s = .error e) : execEnclsEwb s = stopped s e := by
  rw [execEnclsEwb, ewbChecks, bind_of_ok ((premises_eq_ok_iff s ()).mpr ha),
    bind_of_ok ((privileged_eq_ok_iff s ()).mpr hc), bind_of_error h]

/-- The outcome of a stop in S6 to S8. -/
theorem execEnclsEwb_of_infoOperands {s : State} {r : RegOperands} {e : Stop} (ha : Admitted s) (hc : s.cpl = 0)
    (hr : RegsReady s r) (h : ewbInfoOperands s r = .error e) : execEnclsEwb s = stopped s e := by
  rw [execEnclsEwb, ewbChecks, bind_of_ok ((premises_eq_ok_iff s ()).mpr ha),
    bind_of_ok ((privileged_eq_ok_iff s ()).mpr hc), bind_of_ok ((ewbRegOperands_eq_ok_iff s r).mpr hr),
    bind_of_error h]

/-- The outcome of a stop in S9 and S10. -/
theorem execEnclsEwb_of_concurrency {s : State} {r : RegOperands} {m : InfoOperands} {e : Stop} (ha : Admitted s)
    (hc : s.cpl = 0) (hr : RegsReady s r) (hm : InfoReady s r m) (h : ewbConcurrency s r = .error e) :
    execEnclsEwb s = stopped s e := by
  rw [execEnclsEwb, ewbChecks, bind_of_ok ((premises_eq_ok_iff s ()).mpr ha),
    bind_of_ok ((privileged_eq_ok_iff s ()).mpr hc), bind_of_ok ((ewbRegOperands_eq_ok_iff s r).mpr hr),
    bind_of_ok ((ewbInfoOperands_eq_ok_iff s r m).mpr hm), bind_of_error h]

/-- The outcome of a stop in S11 to S13. -/
theorem execEnclsEwb_of_sourceKind {s : State} {r : RegOperands} {m : InfoOperands} {e : Stop} (ha : Admitted s)
    (hc : s.cpl = 0) (hr : RegsReady s r) (hm : InfoReady s r m) (hq : Quiet s r) (h : ewbSourceKind s r = .error e) :
    execEnclsEwb s = stopped s e := by
  rw [execEnclsEwb, ewbChecks, bind_of_ok ((premises_eq_ok_iff s ()).mpr ha),
    bind_of_ok ((privileged_eq_ok_iff s ()).mpr hc), bind_of_ok ((ewbRegOperands_eq_ok_iff s r).mpr hr),
    bind_of_ok ((ewbInfoOperands_eq_ok_iff s r m).mpr hm), bind_of_ok ((ewbConcurrency_eq_ok_iff s r ()).mpr hq),
    bind_of_error h]

theorem stopped_next_iff (s : State) (e : Stop) (t : State) :
    stopped s e = .next t ↔ ∃ la pa, e = .vmExit la pa ∧ t = s.deliverVmExit la pa := by
  cases e with
  | exception x => cases x <;> simp [stopped, takeException]
  | vmExit la pa =>
    simp only [stopped, Host.Outcome.next.injEq, Stop.vmExit.injEq]
    constructor
    · rintro rfl
      exact ⟨la, pa, ⟨rfl, rfl⟩, rfl⟩
    · rintro ⟨_, _, ⟨rfl, rfl⟩, rfl⟩
      rfl
  | refusal r => simp [stopped]

/-- All a next state of EWB can be: the VM exit, an error-code exit, or an eviction. -/
theorem execEnclsEwb_next_cases {s t : State} (h : execEnclsEwb s = .next t) :
    (∃ la pa, ewbChecks s = .error (.vmExit la pa) ∧ t = s.deliverVmExit la pa) ∨
    (∃ c code, EwbReady s c ∧ ewbEvictable s c = .error code ∧ t = ewbErrorExit s code) ∨
    (∃ c ids, EwbReady s c ∧ Evictable s c ids ∧ t = ewbEvict s c ids) := by
  unfold execEnclsEwb at h
  split at h
  · rename_i e he
    obtain ⟨la, pa, rfl, rfl⟩ := (stopped_next_iff s e t).mp h
    exact .inl ⟨la, pa, he, rfl⟩
  · rename_i c hc
    have ready := (ewbChecks_eq_ok_iff s c).mp hc
    rw [Host.Outcome.next.injEq] at h
    subst h
    unfold ewbCommit
    split
    · rename_i code hcode
      exact .inr (.inl ⟨c, code, ready, hcode, rfl⟩)
    · rename_i ids hids
      exact .inr (.inr ⟨c, ids, ready, (ewbEvictable_eq_ok_iff s c ids).mp hids, rfl⟩)

/-! ### The law of the environment predicates -/

/-- With no other SGX instruction in flight none of the four concurrency predicates holds (rule R42). -/
theorem quiet_of_alone {s : State} (h : s.otherInFlight = false) (r : RegOperands) : Quiet s r := by
  constructor <;> simp [State.srcConflict, State.vaModified, State.secsConflict, State.trackingResourceInUse, h]

/-- In a run with a single agent no other SGX instruction is in flight (rule R42). -/
theorem alone_of_single {s : State} (h : s.otherAgents = false) : s.otherInFlight = false := by
  simp [State.otherInFlight, h]

/-! ### Where the EPC is -/

theorem pageOf_add {a i : Nat} (h : a % 4096 + i < 4096) : pageOf (a + i) = pageOf a := by
  unfold pageOf
  omega

/-- `InEPC` is true of whole pages only (rule R49). -/
theorem inEpc_add (s : State) {a i : Nat} (h : a % 4096 + i < 4096) : s.inEpc (a + i) = s.inEpc a := by
  unfold State.inEpc
  rw [pageOf_add h]

/-! ### Where the writes go -/

theorem fieldsFit_le {limit : Nat} {fields : List (Nat × Nat)} (h : fieldsFit limit fields = true) {f : Nat × Nat}
    (hf : f ∈ fields) : f.1 + f.2 ≤ limit := by
  rw [fieldsFit, Bool.and_eq_true, List.all_eq_true] at h
  simpa using h.1 f hf

/-- What `P_codes` says of the offsets EWB writes at. -/
theorem layout_bounds {cfg : Config} (h : cfg.ok = true) :
    cfg.pageInfo.linaddr + 8 ≤ 32 ∧ cfg.pcmd.secinfo + cfg.pcmd.secinfoSize ≤ 128 ∧ cfg.pcmd.enclaveId + 8 ≤ 128 ∧
      cfg.pcmd.reserved + cfg.pcmd.reservedSize ≤ 128 ∧ cfg.pcmd.mac + cfg.pcmd.macSize ≤ 128 ∧
      cfg.secinfoFlags + 8 ≤ cfg.pcmd.secinfoSize := by
  simp only [Config.ok, Bool.and_eq_true, decide_eq_true_eq, PageInfoLayout.ok, PcmdLayout.ok] at h
  obtain ⟨⟨⟨⟨_, hi⟩, hp⟩, hf⟩, _⟩ := h
  refine ⟨fieldsFit_le hi (f := (cfg.pageInfo.linaddr, 8)) (by simp), fieldsFit_le hp (f := (_, _)) (by simp),
    fieldsFit_le hp (f := (cfg.pcmd.enclaveId, 8)) (by simp),
    fieldsFit_le hp (f := (cfg.pcmd.reserved, cfg.pcmd.reservedSize)) (by simp),
    fieldsFit_le hp (f := (cfg.pcmd.mac, cfg.pcmd.macSize)) (by simp), hf⟩

/-- The writes of S19 to S21 cover only bytes of the output page, the PCMD and PAGEINFO. -/
theorem output_covers {s : State} {c : EwbContext} {ids : EnclaveIds} (h : s.cfg.ok = true) {w : Write}
    (hw : w ∈ outputWrites s c ids) {x : Nat} (hx : w.covers x) :
    (c.info.paOut ≤ x ∧ x < c.info.paOut + 4096) ∨ (c.info.paPcmd ≤ x ∧ x < c.info.paPcmd + 128) ∨
      (c.info.paPi + s.cfg.pageInfo.linaddr ≤ x ∧ x < c.info.paPi + s.cfg.pageInfo.linaddr + 8) := by
  obtain ⟨h1, h2, h3, h4, h5, h6⟩ := layout_bounds h
  simp only [outputWrites, List.mem_cons, List.not_mem_nil, or_false] at hw
  rcases hw with rfl | rfl | rfl | rfl | rfl | rfl | rfl <;>
    simp only [Write.covers, ciphertextWrite, macWrite, secinfoWrite, flagsWrite, reservedWrite, enclaveIdWrite,
      linaddrWrite, Vector.length_toList, zeroBytes, List.length_replicate, length_leBytes] at hx <;> omega

/-- All bytes EWB can write: the output page, the PCMD, `PAGEINFO.LINADDR`, the VA slot, the evicted page. -/
theorem evictWrites_cover {s : State} {c : EwbContext} {ids : EnclaveIds} (h : s.cfg.ok = true) {w : Write}
    (hw : w ∈ evictWrites s c ids) {x : Nat} (hx : w.covers x) :
    (c.info.paOut ≤ x ∧ x < c.info.paOut + 4096) ∨ (c.info.paPcmd ≤ x ∧ x < c.info.paPcmd + 128) ∨
      (c.info.paPi + s.cfg.pageInfo.linaddr ≤ x ∧ x < c.info.paPi + s.cfg.pageInfo.linaddr + 8) ∨
      (c.regs.paVa ≤ x ∧ x < c.regs.paVa + 8) ∨ (c.regs.paSrc ≤ x ∧ x < c.regs.paSrc + 4096) := by
  have split : w ∈ outputWrites s c ids ∨ w = slotWrite s c ∨
      w = contentWrite s c := by
    simp only [evictWrites, List.mem_append, List.mem_cons, List.not_mem_nil, or_false] at hw ⊢
    tauto
  rcases split with hw | rfl | rfl
  · have := output_covers h hw hx
    tauto
  · simp only [Write.covers, slotWrite, length_leBytes] at hx
    exact .inr (.inr (.inr (.inl hx)))
  · simp only [Write.covers, contentWrite, Vector.length_toList] at hx
    exact .inr (.inr (.inr (.inr hx)))

/-- The physical addresses keep the alignment of the operands. -/
theorem ready_alignment {s : State} {c : EwbContext} (h : EwbReady s c) :
    c.regs.paSrc % 4096 = 0 ∧ c.info.paOut % 4096 = 0 ∧ c.regs.paVa % 8 = 0 ∧ c.info.paPi % 32 = 0 ∧
      c.info.paPcmd % 128 = 0 := by
  have h1 := translate_offset h.regs.srcPhysical
  have h2 := translate_offset h.info.outPhysical
  have h3 := translate_offset h.regs.vaPhysical
  have h4 := translate_offset h.info.piPhysical
  have h5 := translate_offset h.info.pcmdPhysical
  have a1 := h.regs.srcAligned
  have a2 := h.info.outAligned
  have a3 := h.regs.vaAligned
  have a4 := h.regs.piAligned
  have a5 := h.info.pcmdAligned
  omega

/-- The slot lies apart from every byte of the output page, the PCMD and PAGEINFO: it is in the EPC, they are not. -/
theorem slot_apart {s : State} {c : EwbContext} (h : EwbReady s c) {i : Nat} (hi : i < 8) :
    ¬(c.info.paOut ≤ c.regs.paVa + i ∧ c.regs.paVa + i < c.info.paOut + 4096) ∧
      ¬(c.info.paPcmd ≤ c.regs.paVa + i ∧ c.regs.paVa + i < c.info.paPcmd + 128) ∧
      ¬(c.info.paPi ≤ c.regs.paVa + i ∧ c.regs.paVa + i < c.info.paPi + 32) := by
  obtain ⟨_, a2, a3, a4, a5⟩ := ready_alignment h
  have slot : s.inEpc (c.regs.paVa + i) = true := by rw [inEpc_add s (by omega)]; exact h.regs.vaInEpc
  have apart : ∀ {a n : Nat}, s.inEpc a = false → a % 4096 + n ≤ 4096 →
      ¬(a ≤ c.regs.paVa + i ∧ c.regs.paVa + i < a + n) := by
    intro a n ha hn ⟨h1, h2⟩
    have := inEpc_add s (a := a) (i := c.regs.paVa + i - a) (by omega)
    rw [show a + (c.regs.paVa + i - a) = c.regs.paVa + i by omega, slot, ha] at this
    cases this
  exact ⟨apart h.info.outRegular (by omega), apart h.info.pcmdRegular (by omega),
    apart h.info.piRegular (by omega)⟩

/-- Rule R112 tests the slot after the writes of S19 to S21: it reads there what it read before them (log 20). -/
theorem slot_read_after_output {s : State} {c : EwbContext} {ids : EnclaveIds} (h : EwbReady s c) :
    (s.mem.applyWrites (outputWrites s c ids)).readLe c.regs.paVa 8 =
      s.mem.readLe c.regs.paVa 8 := by
  refine congrArg ofLeBytes (readBytes_congr _ _ fun i hi => read_applyWrites_outside _ _ _ fun w hw hc => ?_)
  obtain ⟨h1, h2, h3⟩ := slot_apart h hi
  have hl := (layout_bounds h.admitted.parameters).1
  rcases output_covers h.admitted.parameters hw hc with h' | h' | h'
  · exact h1 h'
  · exact h2 h'
  · exact h3 (by omega)

/-! ### The committed states as record updates -/

/-- An error-code exit writes RAX, the flags and RIP, and takes the next draws; nothing else. -/
theorem ewbErrorExit_eq (s : State) (code : Word) :
    ewbErrorExit s code =
      { s with
        regs := s.regs.set .rax code
        rflags := withFlag (clearedFlags s.rflags) .zf true
        rip := s.rip + BitVec.ofNat 64 s.cfg.ilen
        drawCount := s.drawCount + 1
        env := Config.freeEnvironment (s.drawCount + 1) } := rfl

/-- An eviction writes RAX, the flags, RIP, memory and the source page's VALID, and takes the next draws; nothing else. -/
theorem ewbEvict_eq (s : State) (c : EwbContext) (ids : EnclaveIds) :
    ewbEvict s c ids =
      { s with
        regs := s.regs.set .rax (if slotOccupied s c then s.cfg.codes.vaSlotOccupied else 0)
        rflags := if slotOccupied s c then withFlag (clearedFlags s.rflags) .cf true else clearedFlags s.rflags
        rip := s.rip + BitVec.ofNat 64 s.cfg.ilen
        mem := s.mem.applyWrites (evictWrites s c ids)
        ewbWritten := s.ewbWritten ++ (evictWrites s c ids).map fun w => (w.address, w.bytes.length)
        epc := s.epc.map fun e => if e.1 = pageOf c.regs.paSrc then (e.1, e.2.invalidated) else e
        drawCount := s.drawCount + 1
        env := Config.freeEnvironment (s.drawCount + 1) } := by
  cases h : slotOccupied s c <;>
    simp only [ewbEvict, h, State.reportSlot, State.complete, State.nextDraws, State.invalidate, State.store,
      State.commitPoint, State.setReg, State.clearStatusFlags, State.setFlag, if_true, Bool.false_eq_true, if_false,
      Regs.set]

/-! ### What no outcome writes -/

/-- An error-code exit leaves what EWB writes on no outcome. -/
theorem unchanged_errorExit (s : State) (code : Word) : Unchanged s (ewbErrorExit s code) := by
  rw [ewbErrorExit_eq]
  exact ⟨rfl, rfl, rfl, rfl, rfl, rfl, rfl, set_rax_rbx _ _, set_rax_rcx _ _, set_rax_rdx _ _, rfl, rfl, rfl, rfl, rfl, rfl⟩

/-- An eviction leaves what EWB writes on no outcome. -/
theorem unchanged_evict (s : State) (c : EwbContext) (ids : EnclaveIds) : Unchanged s (ewbEvict s c ids) := by
  have e := ewbEvict_eq s c ids
  generalize ewbEvict s c ids = t at *
  subst e
  exact ⟨rfl, rfl, rfl, rfl, rfl, rfl, rfl, set_rax_rbx _ _, set_rax_rcx _ _, set_rax_rdx _ _, rfl, rfl, rfl, rfl, rfl, rfl⟩

/-- The VM exit leaves what EWB writes on no outcome. -/
theorem unchanged_vmExit (s : State) (la : Word) (pa : Nat) : Unchanged s (s.deliverVmExit la pa) :=
  ⟨rfl, rfl, rfl, rfl, rfl, rfl, rfl, rfl, rfl, rfl, rfl, rfl, rfl, rfl, rfl, rfl⟩

/-! ### The EPCM after an eviction -/

theorem find_invalidated (l : Epc) (p q : Nat) :
    ((l.map fun e => if e.1 = p then (e.1, e.2.invalidated) else e).find? fun e => e.1 == q).map (·.2) =
      ((l.find? fun e => e.1 == q).map (·.2)).map fun x => if q = p then x.invalidated else x := by
  induction l with
  | nil => rfl
  | cons e l ih =>
    by_cases he : e.1 = q
    · subst he
      by_cases hp : e.1 = p <;> simp [hp]
    · have hb : (e.1 == q) = false := by simpa using he
      have hb' : ((if e.1 = p then (e.1, e.2.invalidated) else e).1 == q) = false := by split <;> exact hb
      rw [List.map_cons, List.find?_cons, hb', List.find?_cons, hb]
      exact ih

/-- Invalidating a page's entry, looked up page by page. -/
theorem epcPage?_invalidate (s : State) (p q : Nat) :
    (s.invalidate p).epcPage? q = (s.epcPage? q).map fun x => if q = p then x.invalidated else x :=
  find_invalidated s.epc p q

/-- Invalidating a page's entry, looked up by an address in a page. -/
theorem epcm_invalidate (s : State) (p a : Nat) :
    (s.invalidate p).epcm a = if pageOf a = p then { s.epcm a with valid := false } else s.epcm a := by
  unfold State.epcm
  rw [epcPage?_invalidate]
  cases s.epcPage? (pageOf a) with
  | none => simp
  | some x =>
    simp only [Option.map_some]
    split <;> rfl

/-- Invalidating an entry takes no page out of the EPC. -/
theorem inEpc_invalidate (s : State) (p a : Nat) : (s.invalidate p).inEpc a = s.inEpc a := by
  simp [State.inEpc, epcPage?_invalidate]

/-- The EPC after an eviction is that of one invalidation. -/
theorem ewbEvict_epc (s : State) (c : EwbContext) (ids : EnclaveIds) :
    (ewbEvict s c ids).epc = (s.invalidate (pageOf c.regs.paSrc)).epc := by
  rw [ewbEvict_eq]
  rfl

end Sys2Proof.Machine
end

