-- ==== Sys2Proof/Laws/EwbMemory.lean ====
section
/-! SUPPORT. Where each write of an eviction goes, that the five operands share no byte, and what every written byte
reads as after the eviction. -/

namespace Sys2Proof.Machine

/-! ### The five operands share no byte -/

/-- An address that is inside an operand of `n` bytes at `a`. -/
def Within (a n x : Nat) : Prop := a ≤ x ∧ x < a + n

theorem inEpc_of_within (s : State) {a n x : Nat} (h : Within a n x) (hn : a % 4096 + n ≤ 4096) :
    s.inEpc x = s.inEpc a := by
  obtain ⟨h1, h2⟩ := h
  rw [show x = a + (x - a) by omega]
  exact inEpc_add s (by omega)

/-- A byte of an operand in regular memory is no byte of one in the EPC. -/
theorem regular_apart_epc {s : State} {a n b k x : Nat} (ha : s.inEpc a = false) (hb : s.inEpc b = true)
    (hn : a % 4096 + n ≤ 4096) (hk : b % 4096 + k ≤ 4096) (hx : Within a n x) : ¬Within b k x := fun hy => by
  have h1 := inEpc_of_within s hx hn
  have h2 := inEpc_of_within s hy hk
  rw [h1, ha, hb] at h2
  cases h2

/-- The slot and the evicted page are in different pages. -/
theorem slot_apart_source {s : State} {c : EwbContext} (h : EwbReady s c) {x : Nat} (hx : Within c.regs.paVa 8 x) :
    ¬Within c.regs.paSrc 4096 x := fun hy => by
  have hd := h.regs.differentPages
  obtain ⟨a1, -, a3, -⟩ := ready_alignment h
  obtain ⟨h1, h2⟩ := hx
  obtain ⟨h3, h4⟩ := hy
  unfold pageOf at hd
  omega

/-- A byte of the output page is no byte of another operand. -/
theorem out_only {s : State} {c : EwbContext} (h : EwbReady s c) {x : Nat} (hx : Within c.info.paOut 4096 x) :
    ¬Within c.info.paPcmd 128 x ∧ ¬Within c.info.paPi 32 x ∧ ¬Within c.regs.paVa 8 x ∧ ¬Within c.regs.paSrc 4096 x := by
  obtain ⟨a1, a2, a3, a4, a5⟩ := ready_alignment h
  refine ⟨fun hy => ?_, fun hy => ?_, regular_apart_epc h.info.outRegular h.regs.vaInEpc (by omega) (by omega) hx,
    regular_apart_epc h.info.outRegular h.regs.srcInEpc (by omega) (by omega) hx⟩
  · have := h.info.outPcmdApart
    unfold Within at hx hy
    omega
  · have := h.info.piOutApart
    unfold Within at hx hy
    omega

/-- A byte of the PCMD is no byte of another operand. -/
theorem pcmd_only {s : State} {c : EwbContext} (h : EwbReady s c) {x : Nat} (hx : Within c.info.paPcmd 128 x) :
    ¬Within c.info.paOut 4096 x ∧ ¬Within c.info.paPi 32 x ∧ ¬Within c.regs.paVa 8 x ∧ ¬Within c.regs.paSrc 4096 x := by
  obtain ⟨a1, a2, a3, a4, a5⟩ := ready_alignment h
  refine ⟨fun hy => (out_only h hy).1 hx, fun hy => ?_,
    regular_apart_epc h.info.pcmdRegular h.regs.vaInEpc (by omega) (by omega) hx,
    regular_apart_epc h.info.pcmdRegular h.regs.srcInEpc (by omega) (by omega) hx⟩
  have := h.info.piPcmdApart
  unfold Within at hx hy
  omega

/-- A byte of PAGEINFO is no byte of another operand. -/
theorem info_only {s : State} {c : EwbContext} (h : EwbReady s c) {x : Nat} (hx : Within c.info.paPi 32 x) :
    ¬Within c.info.paOut 4096 x ∧ ¬Within c.info.paPcmd 128 x ∧ ¬Within c.regs.paVa 8 x ∧
      ¬Within c.regs.paSrc 4096 x := by
  obtain ⟨a1, a2, a3, a4, a5⟩ := ready_alignment h
  exact ⟨fun hy => (out_only h hy).2.1 hx, fun hy => (pcmd_only h hy).2.1 hx,
    regular_apart_epc h.info.piRegular h.regs.vaInEpc (by omega) (by omega) hx,
    regular_apart_epc h.info.piRegular h.regs.srcInEpc (by omega) (by omega) hx⟩

/-! ### What each write covers -/

section Covers

variable (s : State) (c : EwbContext) (ids : EnclaveIds) (x : Nat)

theorem covers_ciphertext : (ciphertextWrite s c ids).covers x ↔ Within c.info.paOut 4096 x := by
  simp only [Write.covers, ciphertextWrite, Within, Vector.length_toList]

theorem covers_mac : (macWrite s c ids).covers x ↔ Within (c.info.paPcmd + s.cfg.pcmd.mac) s.cfg.pcmd.macSize x := by
  simp only [Write.covers, macWrite, Within, Vector.length_toList]

theorem covers_secinfo :
    (secinfoWrite s c).covers x ↔ Within (c.info.paPcmd + s.cfg.pcmd.secinfo) s.cfg.pcmd.secinfoSize x := by
  simp only [Write.covers, secinfoWrite, Within, zeroBytes, List.length_replicate]

theorem covers_flags :
    (flagsWrite s c).covers x ↔ Within (c.info.paPcmd + s.cfg.pcmd.secinfo + s.cfg.secinfoFlags) 8 x := by
  simp only [Write.covers, flagsWrite, Within, length_leBytes]

theorem covers_reserved :
    (reservedWrite s c).covers x ↔ Within (c.info.paPcmd + s.cfg.pcmd.reserved) s.cfg.pcmd.reservedSize x := by
  simp only [Write.covers, reservedWrite, Within, zeroBytes, List.length_replicate]

theorem covers_enclaveId :
    (enclaveIdWrite s c ids).covers x ↔ Within (c.info.paPcmd + s.cfg.pcmd.enclaveId) 8 x := by
  simp only [Write.covers, enclaveIdWrite, Within, length_leBytes]

theorem covers_linaddr : (linaddrWrite s c).covers x ↔ Within (c.info.paPi + s.cfg.pageInfo.linaddr) 8 x := by
  simp only [Write.covers, linaddrWrite, Within, length_leBytes]

theorem covers_slot : (slotWrite s c).covers x ↔ Within c.regs.paVa 8 x := by
  simp only [Write.covers, slotWrite, Within, length_leBytes]

theorem covers_content : (contentWrite s c).covers x ↔ Within c.regs.paSrc 4096 x := by
  simp only [Write.covers, contentWrite, Within, Vector.length_toList]

end Covers

/-- The four fields of the PCMD are disjoint (`P_codes`, rule R53). -/
theorem pcmd_fields_apart {cfg : Config} (h : cfg.ok = true) :
    (cfg.pcmd.secinfo + cfg.pcmd.secinfoSize ≤ cfg.pcmd.enclaveId ∨ cfg.pcmd.enclaveId + 8 ≤ cfg.pcmd.secinfo) ∧
    (cfg.pcmd.secinfo + cfg.pcmd.secinfoSize ≤ cfg.pcmd.reserved ∨
      cfg.pcmd.reserved + cfg.pcmd.reservedSize ≤ cfg.pcmd.secinfo) ∧
    (cfg.pcmd.secinfo + cfg.pcmd.secinfoSize ≤ cfg.pcmd.mac ∨ cfg.pcmd.mac + cfg.pcmd.macSize ≤ cfg.pcmd.secinfo) ∧
    (cfg.pcmd.enclaveId + 8 ≤ cfg.pcmd.reserved ∨ cfg.pcmd.reserved + cfg.pcmd.reservedSize ≤ cfg.pcmd.enclaveId) ∧
    (cfg.pcmd.enclaveId + 8 ≤ cfg.pcmd.mac ∨ cfg.pcmd.mac + cfg.pcmd.macSize ≤ cfg.pcmd.enclaveId) ∧
    (cfg.pcmd.reserved + cfg.pcmd.reservedSize ≤ cfg.pcmd.mac ∨
      cfg.pcmd.mac + cfg.pcmd.macSize ≤ cfg.pcmd.reserved) := by
  simp only [Config.ok, Bool.and_eq_true, decide_eq_true_eq, PcmdLayout.ok, fieldsFit, List.pairwise_cons,
    List.mem_cons, forall_eq_or_imp, List.not_mem_nil] at h
  tauto

/-- The write that covers a byte last gives the byte its value. -/
theorem read_of_covers {m : Memory} {l ws vs : List Write} {w : Write} (hl : l = ws ++ w :: vs) {i : Nat}
    (hi : i < w.bytes.length) (h : ∀ v ∈ vs, ¬v.covers (w.address + i)) :
    (m.applyWrites l).read (w.address + i) = w.bytes[i] := by
  subst hl
  exact read_applyWrites_last m ws vs w i hi h

/-- The little-endian value that a write put in 8 bytes, where no later write covers any of them. -/
theorem readLe_of_covers {m : Memory} {l ws vs : List Write} {w : Write} (hl : l = ws ++ w :: vs) {v : Nat}
    (hb : w.bytes = leBytes 8 v) (hv : v < 2 ^ 64) (h : ∀ i < 8, ∀ u ∈ vs, ¬u.covers (w.address + i)) :
    (m.applyWrites l).readLe w.address 8 = v := by
  have hlen : w.bytes.length = 8 := by rw [hb, length_leBytes]
  have hr : (m.applyWrites l).readBytes w.address w.bytes.length = w.bytes :=
    readBytes_eq _ _ _ fun i hi => read_of_covers hl hi (h i (by omega))
  rw [hlen] at hr
  rw [Memory.readLe, hr, hb, ofLeBytes_leBytes]
  exact Nat.mod_eq_of_lt hv

/-! ### The FLAGS word -/

/-- A value of `k` bits shifted to bit `p` is at most all bits of its field. -/
theorem field_le_bits {v k : Nat} (p : Nat) (h : v < 2 ^ k) : v * 2 ^ p ≤ ∑ i ∈ Finset.Ico p (p + k), 2 ^ i := by
  have hs : ∑ i ∈ Finset.Ico p (p + k), 2 ^ i + 2 ^ p = 2 ^ (p + k) := by
    clear h
    induction k with
    | zero => simp
    | succ k ih => rw [← Nat.add_assoc, Finset.sum_Ico_succ_top (by omega), Nat.pow_succ]; omega
  have : (v + 1) * 2 ^ p ≤ 2 ^ (p + k) := by
    rw [Nat.add_comm p k, Nat.pow_add]
    exact Nat.mul_le_mul_right _ h
  rw [Nat.add_mul, Nat.one_mul] at this
  omega

/-- Disjoint fields inside `n` bits, all bits set, are less than `2 ^ n`. -/
theorem fields_lt (n : Nat) (l : List (Nat × Nat)) (hl : l.all (fun f => decide (f.1 + f.2 ≤ n)) = true)
    (hp : l.Pairwise fun f g => f.1 + f.2 ≤ g.1 ∨ g.1 + g.2 ≤ f.1) :
    (l.map fun f => ∑ i ∈ Finset.Ico f.1 (f.1 + f.2), 2 ^ i).sum < 2 ^ n := by
  have key : ∀ l : List (Nat × Nat), l.all (fun f => decide (f.1 + f.2 ≤ n)) = true →
      (l.Pairwise fun f g => f.1 + f.2 ≤ g.1 ∨ g.1 + g.2 ≤ f.1) →
      ∃ S : Finset Nat, S ⊆ Finset.range n ∧ (∀ i ∈ S, ∃ f ∈ l, f.1 ≤ i ∧ i < f.1 + f.2) ∧
        (l.map fun f => ∑ i ∈ Finset.Ico f.1 (f.1 + f.2), 2 ^ i).sum = ∑ i ∈ S, 2 ^ i := by
    intro l
    induction l with
    | nil => exact fun _ _ => ⟨∅, by simp⟩
    | cons f l ih =>
      intro ha hq
      rw [List.pairwise_cons] at hq
      simp only [List.all_cons, Bool.and_eq_true, decide_eq_true_eq] at ha
      obtain ⟨S, h1, h2, h3⟩ := ih ha.2 hq.2
      refine ⟨Finset.Ico f.1 (f.1 + f.2) ∪ S, Finset.union_subset (fun i hi => ?_) h1, fun i hi => ?_, ?_⟩
      · rw [Finset.mem_Ico] at hi
        rw [Finset.mem_range]
        omega
      · rw [Finset.mem_union, Finset.mem_Ico] at hi
        rcases hi with hi | hi
        · exact ⟨f, List.mem_cons_self, hi⟩
        · obtain ⟨g, hg, hi⟩ := h2 i hi
          exact ⟨g, List.mem_cons_of_mem _ hg, hi⟩
      · rw [List.map_cons, List.sum_cons, h3, Finset.sum_union]
        rw [Finset.disjoint_left]
        intro i hi hS
        obtain ⟨g, hg, hi'⟩ := h2 i hS
        have := hq.1 g hg
        rw [Finset.mem_Ico] at hi
        omega
  obtain ⟨S, h1, -, h3⟩ := key l hl hp
  rw [h3]
  refine lt_of_le_of_lt (Finset.sum_le_sum_of_subset h1) ?_
  clear hl hp key h1 h3
  induction n with
  | zero => simp
  | succ n ih => rw [Finset.sum_range_succ, Nat.pow_succ]; omega

/-- The FLAGS word fits in 64 bits: its subfields are disjoint and do (rule R55). -/
theorem flagsWord_lt {cfg : Config} (h : cfg.ok = true) (e : EpcmEntry) : flagsWord cfg e < 2 ^ 64 := by
  have hf : cfg.flags.ok = true := by
    rw [Config.ok, Bool.and_eq_true] at h
    exact h.2
  rw [FlagsLayout.ok, fieldsFit, Bool.and_eq_true, decide_eq_true_eq] at hf
  have total := fields_lt 64 _ hf.1 hf.2
  simp only [List.map_cons, List.map_nil, List.sum_cons, List.sum_nil] at total
  have bool (b : Bool) (p : Nat) := field_le_bits (v := b.toNat) (k := 1) p (by cases b <;> decide)
  have h1 := field_le_bits cfg.flags.rwx (k := 3) (e.rwx.isLt)
  have h2 := bool e.pending cfg.flags.pending
  have h3 := bool e.modified cfg.flags.modified
  have h4 := bool e.pr cfg.flags.pr
  have h5 := field_le_bits cfg.flags.pt (k := 8) ((ptValue cfg e.pt).isLt)
  unfold flagsWord
  omega

/-! ### What every written byte reads as -/

section Reads

variable {s : State} {c : EwbContext} {ids : EnclaveIds}

theorem read_out (h : EwbReady s c) {i : Nat} (hi : i < 4096) :
    (s.mem.applyWrites (evictWrites s c ids)).read (c.info.paOut + i) = (ewbEncrypt s c ids).1[i] := by
  obtain ⟨g1, g2, g3, g4⟩ := out_only h (x := c.info.paOut + i) ⟨by omega, by omega⟩
  obtain ⟨l1, l2, l3, l4, l5, l6⟩ := layout_bounds h.admitted.parameters
  unfold Within at g1 g2 g3 g4
  have hl : i < (ciphertextWrite s c ids).bytes.length := by rw [ciphertextWrite, Vector.length_toList]; exact hi
  have later : ∀ v ∈ [macWrite s c ids, secinfoWrite s c, flagsWrite s c, reservedWrite s c, enclaveIdWrite s c ids,
      linaddrWrite s c, slotWrite s c, contentWrite s c], ¬v.covers (c.info.paOut + i) := by
    simp only [List.mem_cons, List.not_mem_nil, or_false, forall_eq_or_imp, forall_eq, covers_mac, covers_secinfo,
      covers_flags, covers_reserved, covers_enclaveId, covers_linaddr, covers_slot, covers_content, Within]
    refine ⟨?_, ?_, ?_, ?_, ?_, ?_, g3, g4⟩ <;> clear g3 g4 <;> omega
  exact (read_of_covers (ws := []) rfl hl later).trans (Vector.getElem_toList _)

theorem read_mac (h : EwbReady s c) {i : Nat} (hi : i < s.cfg.pcmd.macSize) :
    (s.mem.applyWrites (evictWrites s c ids)).read (c.info.paPcmd + s.cfg.pcmd.mac + i) = (ewbEncrypt s c ids).2[i] := by
  obtain ⟨l1, l2, l3, l4, l5, l6⟩ := layout_bounds h.admitted.parameters
  obtain ⟨-, g2, g3, g4⟩ := pcmd_only h (x := c.info.paPcmd + s.cfg.pcmd.mac + i) ⟨by omega, by omega⟩
  obtain ⟨-, -, p3, -, p5, p6⟩ := pcmd_fields_apart h.admitted.parameters
  unfold Within at g2 g3 g4
  have hl : i < (macWrite s c ids).bytes.length := by rw [macWrite, Vector.length_toList]; exact hi
  have later : ∀ v ∈ [secinfoWrite s c, flagsWrite s c, reservedWrite s c, enclaveIdWrite s c ids, linaddrWrite s c,
      slotWrite s c, contentWrite s c], ¬v.covers (c.info.paPcmd + s.cfg.pcmd.mac + i) := by
    simp only [List.mem_cons, List.not_mem_nil, or_false, forall_eq_or_imp, forall_eq, covers_secinfo,
      covers_flags, covers_reserved, covers_enclaveId, covers_linaddr, covers_slot, covers_content, Within]
    refine ⟨?_, ?_, ?_, ?_, ?_, g3, g4⟩ <;> clear g3 g4 <;> omega
  exact (read_of_covers (ws := [ciphertextWrite s c ids]) rfl hl later).trans (Vector.getElem_toList _)

theorem read_flags (h : EwbReady s c) :
    (s.mem.applyWrites (evictWrites s c ids)).readLe (c.info.paPcmd + s.cfg.pcmd.secinfo + s.cfg.secinfoFlags) 8 =
      flagsWord s.cfg (s.epcm c.regs.paSrc) := by
  obtain ⟨l1, l2, l3, l4, l5, l6⟩ := layout_bounds h.admitted.parameters
  obtain ⟨p1, p2, -, -, -, -⟩ := pcmd_fields_apart h.admitted.parameters
  refine readLe_of_covers (ws := [ciphertextWrite s c ids, macWrite s c ids, secinfoWrite s c]) (w := flagsWrite s c)
    rfl rfl (flagsWord_lt h.admitted.parameters _) fun i hi => ?_
  change ∀ u ∈ [reservedWrite s c, enclaveIdWrite s c ids, linaddrWrite s c, slotWrite s c, contentWrite s c],
    ¬u.covers (c.info.paPcmd + s.cfg.pcmd.secinfo + s.cfg.secinfoFlags + i)
  obtain ⟨-, g2, g3, g4⟩ :=
    pcmd_only h (x := c.info.paPcmd + s.cfg.pcmd.secinfo + s.cfg.secinfoFlags + i) ⟨by omega, by omega⟩
  unfold Within at g2 g3 g4
  simp only [List.mem_cons, List.not_mem_nil, or_false, forall_eq_or_imp, forall_eq, covers_reserved,
    covers_enclaveId, covers_linaddr, covers_slot, covers_content, Within]
  refine ⟨?_, ?_, ?_, g3, g4⟩ <;> clear g3 g4 <;> omega

theorem read_secinfo (h : EwbReady s c) {i : Nat} (hi : i < s.cfg.pcmd.secinfoSize)
    (hf : ¬(s.cfg.secinfoFlags ≤ i ∧ i < s.cfg.secinfoFlags + 8)) :
    (s.mem.applyWrites (evictWrites s c ids)).read (c.info.paPcmd + s.cfg.pcmd.secinfo + i) = 0 := by
  obtain ⟨l1, l2, l3, l4, l5, l6⟩ := layout_bounds h.admitted.parameters
  obtain ⟨-, g2, g3, g4⟩ := pcmd_only h (x := c.info.paPcmd + s.cfg.pcmd.secinfo + i) ⟨by omega, by omega⟩
  obtain ⟨p1, p2, -, -, -, -⟩ := pcmd_fields_apart h.admitted.parameters
  unfold Within at g2 g3 g4
  have hl : i < (secinfoWrite s c).bytes.length := by rw [secinfoWrite, zeroBytes, List.length_replicate]; exact hi
  have later : ∀ v ∈ [flagsWrite s c, reservedWrite s c, enclaveIdWrite s c ids, linaddrWrite s c, slotWrite s c,
      contentWrite s c], ¬v.covers (c.info.paPcmd + s.cfg.pcmd.secinfo + i) := by
    simp only [List.mem_cons, List.not_mem_nil, or_false, forall_eq_or_imp, forall_eq, covers_flags, covers_reserved,
      covers_enclaveId, covers_linaddr, covers_slot, covers_content, Within]
    refine ⟨?_, ?_, ?_, ?_, g3, g4⟩ <;> clear g3 g4 <;> omega
  exact (read_of_covers (ws := [ciphertextWrite s c ids, macWrite s c ids]) rfl hl later).trans
    (List.getElem_replicate _)

theorem read_reserved (h : EwbReady s c) {i : Nat} (hi : i < s.cfg.pcmd.reservedSize) :
    (s.mem.applyWrites (evictWrites s c ids)).read (c.info.paPcmd + s.cfg.pcmd.reserved + i) = 0 := by
  obtain ⟨l1, l2, l3, l4, l5, l6⟩ := layout_bounds h.admitted.parameters
  obtain ⟨-, g2, g3, g4⟩ := pcmd_only h (x := c.info.paPcmd + s.cfg.pcmd.reserved + i) ⟨by omega, by omega⟩
  obtain ⟨-, -, -, p4, -, -⟩ := pcmd_fields_apart h.admitted.parameters
  unfold Within at g2 g3 g4
  have hl : i < (reservedWrite s c).bytes.length := by rw [reservedWrite, zeroBytes, List.length_replicate]; exact hi
  have later : ∀ v ∈ [enclaveIdWrite s c ids, linaddrWrite s c, slotWrite s c, contentWrite s c],
      ¬v.covers (c.info.paPcmd + s.cfg.pcmd.reserved + i) := by
    simp only [List.mem_cons, List.not_mem_nil, or_false, forall_eq_or_imp, forall_eq, covers_enclaveId,
      covers_linaddr, covers_slot, covers_content, Within]
    refine ⟨?_, ?_, g3, g4⟩ <;> clear g3 g4 <;> omega
  exact (read_of_covers (ws := [ciphertextWrite s c ids, macWrite s c ids, secinfoWrite s c, flagsWrite s c])
    rfl hl later).trans (List.getElem_replicate _)

theorem read_enclaveId (h : EwbReady s c) :
    (s.mem.applyWrites (evictWrites s c ids)).readLe (c.info.paPcmd + s.cfg.pcmd.enclaveId) 8 = ids.pcmd.toNat := by
  obtain ⟨l1, l2, l3, l4, l5, l6⟩ := layout_bounds h.admitted.parameters
  refine readLe_of_covers (ws := [ciphertextWrite s c ids, macWrite s c ids, secinfoWrite s c, flagsWrite s c,
    reservedWrite s c]) (w := enclaveIdWrite s c ids) rfl rfl (BitVec.isLt _) fun i hi => ?_
  change ∀ u ∈ [linaddrWrite s c, slotWrite s c, contentWrite s c],
    ¬u.covers (c.info.paPcmd + s.cfg.pcmd.enclaveId + i)
  obtain ⟨-, g2, g3, g4⟩ := pcmd_only h (x := c.info.paPcmd + s.cfg.pcmd.enclaveId + i) ⟨by omega, by omega⟩
  unfold Within at g2 g3 g4
  simp only [List.mem_cons, List.not_mem_nil, or_false, forall_eq_or_imp, forall_eq, covers_linaddr, covers_slot,
    covers_content, Within]
  exact ⟨by omega, g3, g4⟩

theorem read_linaddr (h : EwbReady s c) :
    (s.mem.applyWrites (evictWrites s c ids)).readLe (c.info.paPi + s.cfg.pageInfo.linaddr) 8 =
      (s.epcm c.regs.paSrc).enclaveAddress.toNat := by
  obtain ⟨l1, l2, l3, l4, l5, l6⟩ := layout_bounds h.admitted.parameters
  refine readLe_of_covers (ws := [ciphertextWrite s c ids, macWrite s c ids, secinfoWrite s c, flagsWrite s c,
    reservedWrite s c, enclaveIdWrite s c ids]) (w := linaddrWrite s c) rfl rfl (BitVec.isLt _) fun i hi => ?_
  change ∀ u ∈ [slotWrite s c, contentWrite s c], ¬u.covers (c.info.paPi + s.cfg.pageInfo.linaddr + i)
  obtain ⟨-, -, g3, g4⟩ := info_only h (x := c.info.paPi + s.cfg.pageInfo.linaddr + i) ⟨by omega, by omega⟩
  simp only [List.mem_cons, List.not_mem_nil, or_false, forall_eq_or_imp, forall_eq, covers_slot, covers_content]
  exact ⟨g3, g4⟩

theorem read_slot (h : EwbReady s c) :
    (s.mem.applyWrites (evictWrites s c ids)).readLe c.regs.paVa 8 = s.version.toNat := by
  refine readLe_of_covers (ws := outputWrites s c ids) (w := slotWrite s c) rfl rfl (BitVec.isLt _) fun i hi => ?_
  change ∀ u ∈ [contentWrite s c], ¬u.covers (c.regs.paVa + i)
  simp only [List.mem_cons, List.not_mem_nil, or_false, forall_eq, covers_content]
  exact slot_apart_source h ⟨by omega, by omega⟩

theorem read_content {i : Nat} (hi : i < 4096) :
    (s.mem.applyWrites (evictWrites s c ids)).read (c.regs.paSrc + i) = (Config.freePageContent s.drawCount)[i] := by
  have hl : i < (contentWrite s c).bytes.length := by rw [contentWrite, Vector.length_toList]; exact hi
  refine (read_of_covers (ws := outputWrites s c ids ++ [slotWrite s c]) (vs := []) (w := contentWrite s c) ?_ hl
    fun v hv => absurd hv (List.not_mem_nil)).trans (Vector.getElem_toList _)
  rw [evictWrites, List.append_assoc]
  rfl

end Reads

end Sys2Proof.Machine
end

