-- ==== Sys2Proof/Laws/Flags.lean ====
section
/-! SUPPORT. What writing a status flag does to that flag and to every other bit of RFLAGS. -/

namespace Sys2Proof.Machine

theorem flagPosition_injective {f g : StatusFlag} (h : flagPosition f = flagPosition g) : f = g := by
  cases f <;> cases g <;> first | rfl | (exact absurd h (by decide))

theorem flagPosition_lt (f : StatusFlag) : flagPosition f < 64 := by cases f <;> decide

/-- Every bit after a flag is written. -/
theorem getLsbD_withFlag (w : Word) (f : StatusFlag) (b : Bool) (i : Nat) :
    (withFlag w f b).getLsbD i = if i = flagPosition f then b else w.getLsbD i := by
  have hp := flagPosition_lt f
  by_cases h : i = flagPosition f
  · subst h
    cases b <;> simp [withFlag, flagMask, hp]
  · have h' : ¬flagPosition f = i := fun e => h e.symm
    cases b
    · rcases Nat.lt_or_ge i 64 with hi | hi
      · simp [withFlag, flagMask, h, hi]
      · simp [withFlag, h, BitVec.getLsbD_of_ge, hi]
    · simp [withFlag, flagMask, h, h']

/-- A flag after a flag is written. -/
theorem flagIn_withFlag (w : Word) (f g : StatusFlag) (b : Bool) :
    flagIn (withFlag w f b) g = if g = f then b else flagIn w g := by
  rw [flagIn, getLsbD_withFlag]
  by_cases h : g = f
  · simp [h]
  · rw [if_neg h, if_neg (fun e => h (flagPosition_injective e)), flagIn]

/-- Clearing the six flags clears each. -/
theorem flagIn_clearedFlags (w : Word) (f : StatusFlag) : flagIn (clearedFlags w) f = false := by
  cases f <;> simp [clearedFlags, flagIn_withFlag]

/-- Clearing the six flags leaves every bit that holds none of them. -/
theorem getLsbD_clearedFlags (w : Word) (i : Nat) (h : ∀ f, i ≠ flagPosition f) :
    (clearedFlags w).getLsbD i = w.getLsbD i := by
  simp [clearedFlags, getLsbD_withFlag, h]

end Sys2Proof.Machine
end

