-- ==== Sys2Proof/Laws/PerInstr.lean ====
section
/-! SUPPORT. Statements about every instruction as an instruction: one lemma per constructor. -/

namespace Sys2Proof.Laws.EncodingShape

/-- An instruction is well formed, its bytes are the `ILEN` bytes of `ENCLS`, and its selector is that of its own row
and of no other (rules R72, R73, R77). -/
def Statement (i : Instr) : Prop :=
  i.wellFormed = true ∧ (∀ cfg : Config, (encode cfg i).bytes.length = cfg.ilen) ∧
    ∀ cfg : Config, leafOf (encode cfg i).selector = some i

theorem enclsEwb : Statement .enclsEwb := 
  ⟨rfl, fun _ => rfl, fun _ => show leafOf 0x0000000B = some .enclsEwb by decide⟩

end Sys2Proof.Laws.EncodingShape
end

