-- ==== Sys2Proof/Tests/Slice0.lean ====
section
/-! SUPPORT. Small tests: ill-formed parameters, decoding, single steps from the start world W0 of 95_test_vectors.md,
and a state that meets the hypotheses of each obligation. -/

namespace Sys2Proof.Machine.Tests

/-! ### The start world W0 (95_test_vectors.md section 2), cut to the pages and bytes the tests look at -/

def both (page : Nat) : PageMapping := { page := page, onRead := .frame page, onWrite := .frame page }

def entry (pt : PageType) (blocked : Bool) (la : Word) (secs : Option Nat) : EpcmEntry :=
  { valid := true, pt := pt, blocked := blocked, enclaveAddress := la, rwx := 0, pending := false, modified := false,
    pr := false, enclaveSecs := secs }

def page (e : EpcmEntry) : EpcPage := { entry := e, secsEid := 0, secsVirtChildCnt := 0 }

def secsPage (eid : Word) (virt : Nat) : EpcPage :=
  { entry := entry .secs false 0 none, secsEid := eid, secsVirtChildCnt := virt }

/-- E0 to E7; E4's entry is invalid. -/
def epc0 : Epc :=
  [(0x80000000, secsPage 0x42 0),
   (0x80001000, page { entry .reg true 0x700000002000 (some 0x80000000) with rwx := 3 }),
   (0x80002000, page (entry .va false 0 none)),
   (0x80003000, page (entry .tcs false 0x700000003000 (some 0x80000000))),
   (0x80004000, page { entry .reg false 0 none with valid := false }),
   (0x80005000, page (entry .va false 0 none)),
   (0x80006000, secsPage 0x77 2),
   (0x80007000, page { entry .reg true 0x700000007000 (some 0x80000000) with rwx := 5, pending := true, pr := true })]

/-- `ec_np` is 0x2 and `ec_ro` is 0x3 here; no rule reads them. -/
def paging0 : Paging :=
  { pages := [both 0x10, both 0x20, both 0x21, both 0x30, both 0x40, both 0x401, both 0x80000, both 0x80001, both 0x80002,
      both 0x80003, both 0x80004, both 0x80005, both 0x80006, both 0x80007,
      { page := 0x60, onRead := .frame 0x60, onWrite := .pageFault 0x3 }]
    unmappedCode := 0x2 }

def quiet : Environment :=
  { inFlight := true, srcConflict := false, vaModified := false, secsConflict := false, trackingResourceInUse := false,
    eblockCorrect := true, trackingCorrect := true }

/-- PAGEINFO at 0x10000, the bytes of `ENCLS` at 0x401000, the slot at 0x80002010 holding 0x99; all six flags set. -/
def w0 : State :=
  { State.reset with
    regs := { rax := 0xB, rbx := 0x10000, rcx := 0x80001000, rdx := 0x80002008 }
    rip := 0x401000
    rflags := 0x8D5
    paging := paging0
    epc := epc0
    env := quiet
    mem := [(0x1000A, 0x02), (0x10012, 0x03), (0x401000, 0x0F), (0x401001, 0x01), (0x401002, 0xCF), (0x80002010, 0x99)] }

/-- W0 with other operand registers. -/
def w0With (rbx rcx rdx : Word) : State := { w0 with regs := { rax := 0xB, rbx := rbx, rcx := rcx, rdx := rdx } }

/-- W0 with other bytes at PAGEINFO. -/
def w0Info (a : Nat) (b : Byte) : State := { w0 with mem := w0.mem.writeBytes a [b] }

def guest (s : State) : State := { s with vmxCond := true, epcVirtExtensions := true }

/-! ### What a test looks at -/

def nextOf : Host.Outcome State Fault Refusal → Option State
  | .next t => some t
  | .fault _ => none
  | .refused _ => none

def faultOf : Host.Outcome State Fault Refusal → Option Fault
  | .next _ => none
  | .fault f => some f
  | .refused _ => none

def refusalOf : Host.Outcome State Fault Refusal → Option Refusal
  | .next _ => none
  | .fault _ => none
  | .refused r => some r

def result (s : State) : Option (Word × Word × Bool × Bool) :=
  (nextOf (step s)).map fun t => (t.regs.rax, t.rip, t.flag .zf, t.flag .cf)

/-! ### Ill-formed parameters are refused -/

theorem test_default_config_ok : defaultConfig.ok = true := by decide

theorem test_error_code_zero_refused :
    ({ defaultConfig with codes := { defaultConfig.codes with notTracked := 0 } } : Config).ok = false := by decide

theorem test_error_codes_equal_refused :
    ({ defaultConfig with codes := { defaultConfig.codes with notTracked := 10 } } : Config).ok = false := by decide

theorem test_page_types_equal_refused :
    ({ defaultConfig with pageTypes := { defaultConfig.pageTypes with va := 0 } } : Config).ok = false := by decide

theorem test_page_info_overlap_refused :
    ({ defaultConfig with pageInfo := { defaultPageInfo with secs := 20 } } : Config).ok = false := by decide

theorem test_page_info_outside_refused :
    ({ defaultConfig with pageInfo := { defaultPageInfo with secs := 25 } } : Config).ok = false := by decide

theorem test_pcmd_overlap_refused :
    ({ defaultConfig with pcmd := { defaultPcmd with enclaveId := 63 } } : Config).ok = false := by decide

theorem test_pcmd_outside_refused :
    ({ defaultConfig with pcmd := { defaultPcmd with macSize := 17 } } : Config).ok = false := by decide

theorem test_flags_overlap_refused :
    ({ defaultConfig with flags := { defaultFlags with pending := 2 } } : Config).ok = false := by decide

theorem test_flags_word_outside_secinfo_refused :
    ({ defaultConfig with secinfoFlags := 57 } : Config).ok = false := by decide

theorem test_ill_formed_parameters_refused :
    refusalOf (exec .enclsEwb { w0 with cfg := { defaultConfig with secinfoFlags := 57 } }) =
      some .parametersIllFormed := by decide

/-! ### Decoding: the bytes `0F 01 CF` and `EAX = 0BH` (rules R73, R77) -/

theorem test_decode_ewb : decode defaultConfig [0x0F, 0x01, 0xCF] 0b00000000000000000000000000001011 =
    .ok (.enclsEwb, []) := rfl

theorem test_decode_other_leaf : decode defaultConfig [0x0F, 0x01, 0xCF] 0x0000010B = .error (.otherLeaf 0x10B) := rfl

theorem test_decode_operand_size_form : decode defaultConfig [0x66, 0x0F, 0x01, 0xCF] 0xB = .error .notEncls := rfl

/-- FlagsWord of E1 and E7 (95_test_vectors.md section 2). -/
theorem test_flags_word : flagsWord defaultConfig (w0.epcm 0x80001000) = 0x203 ∧
    flagsWord defaultConfig (w0.epcm 0x80007000) = 0x22D := by decide

/-! ### Two steps -/

/-- V29: an occupied slot is reported in RAX and CF and does not stop the eviction. -/
theorem test_occupied_slot : result (w0With 0x10000 0x80001000 0x80002010) = some (12, 0x401003, false, true) := by rfl

/-- V22: a page that is not blocked; the upper half of RAX is rewritten too (V31). -/
theorem test_not_blocked :
    result { w0With 0x10000 0x80003000 0x80002008 with
      regs := { rax := 0xFFFFFFFF0000000B, rbx := 0x10000, rcx := 0x80003000, rdx := 0x80002008 } } =
      some (10, 0x401003, true, false) := by rfl

/-! ### States that meet the hypotheses of the obligations

`ctx rcx rdx kind` is what the checks establish in W0 with those operand registers. -/

def at64 (v : Word) : Operand := { off := v, la := v }

def regs (rcx rdx : Word) : RegOperands :=
  { pi := at64 0x10000, src := at64 rcx, va := at64 rdx, paSrc := rcx.toNat, paVa := rdx.toNat }

def info : InfoOperands :=
  { paPi := 0x10000, pcmd := at64 0x30000, out := at64 0x20000, paPcmd := 0x30000, paOut := 0x20000 }

def ctx (rcx rdx : Word) (kind : SourceKind) : EwbContext := { regs := regs rcx rdx, info := info, kind := kind }

/-- E1 into the empty slot at 0x80002008. -/
def ctx1 : EwbContext := ctx 0x80001000 0x80002008 (.child 0x80000000)

def ids1 : EnclaveIds := { header := 0x42, pcmd := 0x42 }

theorem ready_of {s : State} {c : EwbContext} (h : ewbChecks s = .ok c) : EwbReady s c := (ewbChecks_eq_ok_iff s c).mp h

theorem admitted_of {s : State} (h : s.premises = .ok ()) : Admitted s := (premises_eq_ok_iff s ()).mp h

theorem regs_of {s : State} {r : RegOperands} (h : ewbRegOperands s = .ok r) : RegsReady s r :=
  (ewbRegOperands_eq_ok_iff s r).mp h

theorem info_of {s : State} {r : RegOperands} {m : InfoOperands} (h : ewbInfoOperands s r = .ok m) : InfoReady s r m :=
  (ewbInfoOperands_eq_ok_iff s r m).mp h

theorem test_w0_ready : EwbReady w0 ctx1 := ready_of rfl

theorem test_w0_evictable : Evictable w0 ctx1 ids1 := ⟨rfl, rfl, rfl⟩

theorem test_w0_runs : exec .enclsEwb w0 = .next (ewbCommit w0 ctx1) := execEnclsEwb_of_ready test_w0_ready

theorem test_w0_steps : step w0 = .next (ewbCommit w0 ctx1) := by
  have h : step w0 = exec .enclsEwb w0 := rfl
  rw [h, test_w0_runs]

/-! ### Encoding and the step -/

theorem test_witness_EncodeInvertsDecode :
    decode defaultConfig [0x0F, 0x01, 0xCF, 0x90] 0x0000000B = .ok (.enclsEwb, [0x90]) := rfl

theorem test_witness_StepRunsDecodedInstruction :
    w0.fetch = .ok [0x0F, 0x01, 0xCF] ∧ decode w0.cfg [0x0F, 0x01, 0xCF] w0.eax = .ok (.enclsEwb, []) := ⟨rfl, rfl⟩

theorem test_witness_FetchReadsBytesAtRip (i : Nat) (hi : i < ([0x0F, 0x01, 0xCF] : List Byte).length) :
    ([0x0F, 0x01, 0xCF] : List Byte).length = w0.cfg.ilen ∧
      ∃ pa, w0.translate (w0.rip + BitVec.ofNat 64 i) .read = .ok pa ∧ w0.writtenByEwb pa = false ∧
        w0.mem.read pa = ([0x0F, 0x01, 0xCF] : List Byte)[i] := by
  refine ⟨rfl, ?_⟩
  match i, hi with
  | 0, _ => exact ⟨0x401000, rfl, rfl, rfl⟩
  | 1, _ => exact ⟨0x401001, rfl, rfl, rfl⟩
  | 2, _ => exact ⟨0x401002, rfl, rfl, rfl⟩

/-- W0 with another RAX. -/
def w0Rax (rax : Word) : State := { w0 with regs := { rax := rax, rbx := 0x10000, rcx := 0x80001000, rdx := 0x80002008 } }

theorem test_witness_LeafSelectedByEax_selected : (w0Rax 0xFFFFFFFF0000000B).fetch = .ok (w0Rax 0).cfg.enclsBytes ∧
    (w0Rax 0xFFFFFFFF0000000B).regs.rax.setWidth 32 = (0x0000000B : BitVec 32) := ⟨rfl, rfl⟩

theorem test_witness_LeafSelectedByEax_other : (w0Rax 0x0000000B0000010B).fetch = .ok (w0Rax 0).cfg.enclsBytes ∧
    (w0Rax 0x0000000B0000010B).regs.rax.setWidth 32 ≠ (0x0000000B : BitVec 32) := ⟨rfl, by decide⟩

theorem test_witness_OnlyBareEnclsAdmitted :
    (w0Info 0x401000 0x66).fetch = .ok [0x66, 0x01, 0xCF] ∧ [0x66, 0x01, 0xCF] ≠ (w0Info 0x401000 0x66).cfg.enclsBytes :=
  ⟨rfl, by decide⟩

/-- The last byte of the instruction was written by EWB. -/
theorem test_witness_BytesEwbWroteAreNotFetched_fetch :
    2 < w0.cfg.ilen ∧ ({ w0 with ewbWritten := [(0x401002, 1)] } : State).translate (w0.rip + 2) .read = .ok 0x401002 ∧
      ({ w0 with ewbWritten := [(0x401002, 1)] } : State).writtenByEwb 0x401002 = true := ⟨by decide, rfl, rfl⟩

/-- The last byte of the output page. -/
theorem test_witness_BytesEwbWroteAreNotFetched_record :
    EwbReady w0 ctx1 ∧ Evictable w0 ctx1 ids1 ∧ exec .enclsEwb w0 = .next (ewbCommit w0 ctx1) ∧
      ∃ w ∈ evictWrites w0 ctx1 ids1, w.covers 0x20FFF :=
  ⟨test_w0_ready, test_w0_evictable, test_w0_runs, ciphertextWrite w0 ctx1 ids1, List.mem_cons_self,
    by simp only [Write.covers, ciphertextWrite, Vector.length_toList]; decide⟩

/-- A byte an earlier EWB wrote, before a step and before an environment step. -/
theorem test_witness_BytesEwbWroteAreNotFetched_kept :
    (∃ t, step { w0 with ewbWritten := [(0x21000, 1)] } = .next t) ∧
      ({ w0 with ewbWritten := [(0x21000, 1)] } : State).writtenByEwb 0x21000 = true :=
  ⟨⟨_, (execEnclsEwb_of_ready (ready_of rfl : EwbReady { w0 with ewbWritten := [(0x21000, 1)] } ctx1) :)⟩, rfl⟩

/-! ### Completion -/

theorem test_witness_EwbCompletesWhenReady : EwbReady w0 ctx1 := test_w0_ready

/-- E3 is a TCS page that is not blocked. -/
def w3 : State := w0With 0x10000 0x80003000 0x80002008

def ctx3 : EwbContext := ctx 0x80003000 0x80002008 (.child 0x80000000)

/-- E6 is a SECS page with no child page and VIRTCHILDCNT 2. -/
def w6 : State := w0With 0x10000 0x80006000 0x80002008

def ctx6 : EwbContext := ctx 0x80006000 0x80002008 .secs

/-- E5 is a VA page. -/
def w5 : State := w0With 0x10000 0x80005000 0x80002008

def ctx5 : EwbContext := ctx 0x80005000 0x80002008 .va

def untracked (s : State) : State := { s with env := { quiet with trackingCorrect := false } }

theorem test_witness_NotBlockedExit_child :
    EwbReady w3 ctx3 ∧ ctx3.kind = .child 0x80000000 ∧ (w3.epcm ctx3.regs.paSrc).blocked = false :=
  ⟨ready_of rfl, rfl, rfl⟩

/-- The VA page E5 has BLOCKED 0 as well. -/
theorem test_witness_NotBlockedExit_va : EwbReady w5 ctx5 ∧ Evictable w5 ctx5 { header := 0, pcmd := 0 } ∧
    ∀ p, ctx5.kind ≠ .child p := ⟨ready_of rfl, rfl, fun _ h => by cases h⟩

theorem test_witness_NotTrackedExit_blocked :
    EwbReady (untracked w0) ctx1 ∧ ctx1.kind = .child 0x80000000 ∧ (untracked w0).env.trackingCorrect = false ∧
      ((untracked w0).epcm ctx1.regs.paSrc).blocked = true := ⟨ready_of rfl, rfl, rfl, rfl⟩

/-- V33: neither blocked nor tracked. -/
theorem test_witness_NotTrackedExit_unblocked :
    EwbReady (untracked w3) ctx3 ∧ ctx3.kind = .child 0x80000000 ∧ (untracked w3).env.trackingCorrect = false ∧
      ((untracked w3).epcm ctx3.regs.paSrc).blocked = false := ⟨ready_of rfl, rfl, rfl, rfl⟩

/-- V24: E0 has the child pages E1, E3 and E7. -/
theorem test_witness_ChildPresentExit :
    EwbReady (w0With 0x10000 0x80000000 0x80002008) (ctx 0x80000000 0x80002008 .secs) ∧
      (w0With 0x10000 0x80000000 0x80002008).hasChild (pageOf 0x80000000) = true := ⟨ready_of rfl, rfl⟩

/-- V26. -/
theorem test_witness_VirtualChildExit_guest :
    EwbReady (guest w6) ctx6 ∧ ctx6.kind = .secs ∧ (guest w6).hasChild (pageOf ctx6.regs.paSrc) = false ∧
      (guest w6).vmxCond = true ∧ (guest w6).epcVirtExtensions = true ∧
      (guest w6).secsVirtChildCnt (pageOf ctx6.regs.paSrc) ≠ 0 := ⟨ready_of rfl, rfl, rfl, rfl, rfl, by decide⟩

/-- V27: a guest without the extensions. -/
theorem test_witness_VirtualChildExit_not_examined :
    EwbReady { guest w6 with epcVirtExtensions := false } ctx6 ∧ ctx6.kind = .secs ∧
      (guest w6).hasChild (pageOf ctx6.regs.paSrc) = false := ⟨ready_of rfl, rfl, rfl⟩

theorem test_witness_SlotReportedAndWritten_empty :
    EwbReady w0 ctx1 ∧ Evictable w0 ctx1 ids1 ∧ w0.mem.readLe ctx1.regs.paVa 8 = 0 :=
  ⟨test_w0_ready, test_w0_evictable, rfl⟩

theorem test_witness_SlotReportedAndWritten_occupied :
    EwbReady (w0With 0x10000 0x80001000 0x80002010) (ctx 0x80001000 0x80002010 (.child 0x80000000)) ∧
      Evictable (w0With 0x10000 0x80001000 0x80002010) (ctx 0x80001000 0x80002010 (.child 0x80000000)) ids1 ∧
      (w0With 0x10000 0x80001000 0x80002010).mem.readLe 0x80002010 8 ≠ 0 :=
  ⟨ready_of rfl, ⟨rfl, rfl, rfl⟩, by decide⟩

/-- The last bytes of the output page and of the MAC. -/
theorem test_witness_CiphertextAndMacWritten :
    EwbReady w0 ctx1 ∧ Evictable w0 ctx1 ids1 ∧ 4095 < 4096 ∧ 15 < w0.cfg.pcmd.macSize :=
  ⟨test_w0_ready, test_w0_evictable, by decide, by decide⟩

theorem test_witness_ChildPageBoundToItsEnclave :
    EwbReady w0 ctx1 ∧ ctx1.kind = .child 0x80000000 ∧ (w0.epcm ctx1.regs.paSrc).blocked = true ∧
      w0.env.trackingCorrect = true := ⟨test_w0_ready, rfl, rfl, rfl⟩

/-- V25. -/
theorem test_witness_SecsPageHandle :
    EwbReady w6 ctx6 ∧ ctx6.kind = .secs ∧ w6.hasChild (pageOf ctx6.regs.paSrc) = false ∧
      (w6.vmxCond = true → w6.epcVirtExtensions = true → w6.secsVirtChildCnt (pageOf ctx6.regs.paSrc) = 0) :=
  ⟨ready_of rfl, rfl, rfl, fun h => by cases h⟩

/-- V28. -/
theorem test_witness_VaPageHasNoHandle : EwbReady w5 ctx5 ∧ ctx5.kind = .va := ⟨ready_of rfl, rfl⟩

/-- The first byte of SECINFO after FLAGS, the last byte of SECINFO and the last of RESERVED. -/
theorem test_witness_PcmdContents :
    EwbReady w0 ctx1 ∧ Evictable w0 ctx1 ids1 ∧ w0.cfg.flags = defaultFlags ∧ w0.cfg.pcmd = defaultPcmd ∧
      (8 < w0.cfg.pcmd.secinfoSize ∧ ¬(w0.cfg.secinfoFlags ≤ 8 ∧ 8 < w0.cfg.secinfoFlags + 8)) ∧
      (63 < w0.cfg.pcmd.secinfoSize ∧ ¬(w0.cfg.secinfoFlags ≤ 63 ∧ 63 < w0.cfg.secinfoFlags + 8)) ∧
      39 < w0.cfg.pcmd.reservedSize :=
  ⟨test_w0_ready, test_w0_evictable, rfl, rfl, by decide, by decide, by decide⟩

/-- The first byte after LINADDR and the last byte of PAGEINFO. -/
theorem test_witness_LinaddrWritten :
    EwbReady w0 ctx1 ∧ Evictable w0 ctx1 ids1 ∧
      ¬(w0.cfg.pageInfo.linaddr ≤ 8 ∧ 8 < w0.cfg.pageInfo.linaddr + 8) ∧
      ¬(w0.cfg.pageInfo.linaddr ≤ 31 ∧ 31 < w0.cfg.pageInfo.linaddr + 8) :=
  ⟨test_w0_ready, test_w0_evictable, by decide, by decide⟩

theorem test_witness_OnlyValidOfSourceCleared :
    EwbReady w0 ctx1 ∧ Evictable w0 ctx1 ids1 ∧ 0x80002000 ≠ pageOf ctx1.regs.paSrc :=
  ⟨test_w0_ready, test_w0_evictable, by decide⟩

theorem test_witness_EvictedContentIsFree_evicted : EwbReady w0 ctx1 ∧ ∃ ids, Evictable w0 ctx1 ids :=
  ⟨test_w0_ready, ids1, test_w0_evictable⟩

theorem test_witness_EvictedContentIsFree_kept : EwbReady w3 ctx3 ∧ ∀ ids, ¬Evictable w3 ctx3 ids :=
  ⟨ready_of rfl, fun _ h => absurd h.1 (by decide)⟩

theorem test_witness_ZeroAndCarryByOutcome : EwbReady w0 ctx1 := test_w0_ready

theorem test_witness_ReturnCodeTellsOutcome : EwbReady w3 ctx3 := ready_of rfl

/-! ### Frame -/

theorem test_witness_EwbRegisterFrame : ∃ t, exec .enclsEwb w0 = .next t := ⟨_, test_w0_runs⟩

/-- The first byte after the output page is outside all five operands. -/
theorem test_witness_EvictionMemoryFrame :
    EwbReady w0 ctx1 ∧ (∃ t, exec .enclsEwb w0 = .next t) ∧
      ¬(ctx1.info.paOut ≤ 0x21000 ∧ 0x21000 < ctx1.info.paOut + 4096) ∧
      ¬(ctx1.info.paPcmd ≤ 0x21000 ∧ 0x21000 < ctx1.info.paPcmd + 128) ∧
      ¬(ctx1.info.paPi + w0.cfg.pageInfo.linaddr ≤ 0x21000 ∧
        0x21000 < ctx1.info.paPi + w0.cfg.pageInfo.linaddr + 8) ∧
      ¬(ctx1.regs.paVa ≤ 0x21000 ∧ 0x21000 < ctx1.regs.paVa + 8) ∧
      ¬(ctx1.regs.paSrc ≤ 0x21000 ∧ 0x21000 < ctx1.regs.paSrc + 4096) :=
  ⟨test_w0_ready, ⟨_, test_w0_runs⟩, by decide, by decide, by decide, by decide, by decide⟩

def conflicting (s : State) : State := { s with env := { quiet with srcConflict := true } }

theorem test_conflict_checks : ewbChecks (guest (conflicting w0)) = .error (.vmExit 0x80001000 0x80001000) := rfl

/-- V14. -/
theorem test_witness_OnlyVmExitWithoutCommit :
    (∀ c, ¬EwbReady (guest (conflicting w0)) c) ∧ ∃ t, exec .enclsEwb (guest (conflicting w0)) = .next t := by
  refine ⟨fun c h => ?_, (guest (conflicting w0)).deliverVmExit 0x80001000 0x80001000, ?_⟩
  · have hk := (ewbChecks_eq_ok_iff _ c).mpr h
    rw [test_conflict_checks] at hk
    cases hk
  · rw [show exec .enclsEwb (guest (conflicting w0)) = execEnclsEwb (guest (conflicting w0)) from rfl, execEnclsEwb,
      test_conflict_checks]
    rfl

/-! ### Faults -/

/-- V36, and the boundary CPL 1. -/
theorem test_witness_NotPrivilegedFaults :
    (Admitted { w0 with cpl := 3 } ∧ ({ w0 with cpl := 3 } : State).cpl ≠ 0) ∧
      Admitted { w0 with cpl := 1 } ∧ ({ w0 with cpl := 1 } : State).cpl ≠ 0 :=
  ⟨⟨admitted_of rfl, by decide⟩, admitted_of rfl, by decide⟩

/-- V2 and V3. -/
theorem test_witness_MisalignedRegisterOperandFaults :
    (Admitted (w0With 0x10010 0x80001000 0x80002008) ∧ (w0With 0x10010 0x80001000 0x80002008).cpl = 0 ∧
      ((w0With 0x10010 0x80001000 0x80002008).operand 0x10010).la.toNat % 32 ≠ 0) ∧
    Admitted (w0With 0x10000 0x80001800 0x80002008) ∧ (w0With 0x10000 0x80001800 0x80002008).cpl = 0 ∧
      ((w0With 0x10000 0x80001800 0x80002008).operand 0x80001800).la.toNat % 4096 ≠ 0 :=
  ⟨⟨admitted_of rfl, rfl, by decide⟩, admitted_of rfl, rfl, by decide⟩

/-- S1 passes in W0 whatever RDX is, for these values of RCX. -/
theorem s1_of {s : State} (h : s.premises = .ok ()) (hc : s.cpl = 0) (h1 : s.addrOk (s.operand s.regs.rbx) 32 = true)
    (h2 : s.addrOk (s.operand s.regs.rcx) 4096 = true) (h3 : (s.operand s.regs.rbx).la.toNat % 32 = 0)
    (h4 : (s.operand s.regs.rcx).la.toNat % 4096 = 0) : S1Passes s := ⟨admitted_of h, hc, h1, h2, h3, h4⟩

/-- V5 and V4: not mapped, and mapped outside the EPC. -/
theorem test_witness_SourceOutsideEpcFaults :
    (S1Passes (w0With 0x10000 0x50000000 0x80002008) ∧
      (w0With 0x10000 0x50000000 0x80002008).translate 0x50000000 .write = .error 0x2) ∧
    S1Passes (w0With 0x10000 0x40000 0x80002008) ∧
      (w0With 0x10000 0x40000 0x80002008).translate 0x40000 .write = .ok 0x40000 ∧
      (w0With 0x10000 0x40000 0x80002008).inEpc 0x40000 = false :=
  ⟨⟨s1_of rfl rfl rfl rfl rfl rfl, rfl⟩, s1_of rfl rfl rfl rfl rfl rfl, rfl, rfl⟩

theorem s2_of {s : State} {p : Nat} (h : S1Passes s) (ht : s.translate (s.operand s.regs.rcx).la .write = .ok p)
    (hi : s.inEpc p = true) : S2Passes s p := ⟨h, ht, hi⟩

/-- V6, and V32 (ii). -/
theorem test_witness_MisalignedSlotFaults :
    (S2Passes (w0With 0x10000 0x80001000 0x80002004) 0x80001000 ∧
      ((w0With 0x10000 0x80001000 0x80002004).operand 0x80002004).la.toNat % 8 ≠ 0) ∧
    S1Passes (w0With 0x10000 0x40000 0x80002004) ∧
      (w0With 0x10000 0x40000 0x80002004).translate 0x40000 .write = .ok 0x40000 ∧
      (w0With 0x10000 0x40000 0x80002004).inEpc 0x40000 = false ∧
      ((w0With 0x10000 0x40000 0x80002004).operand 0x80002004).la.toNat % 8 ≠ 0 :=
  ⟨⟨s2_of (s1_of rfl rfl rfl rfl rfl rfl) rfl rfl, by decide⟩, s1_of rfl rfl rfl rfl rfl rfl, rfl, rfl, by decide⟩

/-- V7, and a slot that is not mapped. -/
theorem test_witness_SlotOutsideEpcFaults :
    (S3Passes (w0With 0x10000 0x80001000 0x40008) 0x80001000 ∧
      (w0With 0x10000 0x80001000 0x40008).translate 0x40008 .write = .ok 0x40008 ∧
      (w0With 0x10000 0x80001000 0x40008).inEpc 0x40008 = false) ∧
    S3Passes (w0With 0x10000 0x80001000 0x50000008) 0x80001000 ∧
      (w0With 0x10000 0x80001000 0x50000008).translate 0x50000008 .write = .error 0x2 :=
  ⟨⟨⟨s2_of (s1_of rfl rfl rfl rfl rfl rfl) rfl rfl, rfl, rfl⟩, rfl, rfl⟩, ⟨s2_of (s1_of rfl rfl rfl rfl rfl rfl) rfl rfl, rfl, rfl⟩, rfl⟩

/-- V8: the last slot of the page being evicted. -/
theorem test_witness_SamePageFaults :
    S4Passes (w0With 0x10000 0x80002000 0x80002FF8) 0x80002000 0x80002FF8 ∧ pageOf 0x80002000 = pageOf 0x80002FF8 :=
  ⟨⟨⟨⟨s1_of rfl rfl rfl rfl rfl rfl, rfl, rfl⟩, rfl, rfl⟩, rfl, rfl⟩, rfl⟩

theorem s5_of {s : State} {r : RegOperands} (h : s.premises = .ok ()) (hc : s.cpl = 0)
    (hr : ewbRegOperands s = .ok r) : S5Passes s r := ⟨admitted_of h, hc, regs_of hr⟩

/-- W0 with a whole pointer field of PAGEINFO written. -/
def w0Field (off : Nat) (v : Nat) : State := { w0 with mem := w0.mem.writeBytes (0x10000 + off) (leBytes 8 v) }

def regs1 : RegOperands := regs 0x80001000 0x80002008

/-- V38. -/
theorem test_witness_InfoOperandPageFaults_info :
    S5Passes (w0With 0x60000 0x80001000 0x80002008) { regs1 with pi := at64 0x60000 } ∧
      (w0With 0x60000 0x80001000 0x80002008).translate 0x60000 .write = .error 0x3 := ⟨s5_of rfl rfl rfl, rfl⟩

theorem s7_of {s : State} {r : RegOperands} {p : Nat} (h : S5Passes s r) (hp : s.translate r.pi.la .write = .ok p)
    (h1 : s.mem.readLe (p + s.cfg.pageInfo.linaddr) 8 = 0) (h2 : s.mem.readLe (p + s.cfg.pageInfo.secs) 8 = 0) :
    S7Passes s r p := ⟨h, hp, h1, h2⟩

theorem test_witness_InfoOperandPageFaults_pcmd :
    S8AddressesPass (w0Field 16 0x60000) regs1 0x10000 ∧
      (w0Field 16 0x60000).translate (pcmdOperand (w0Field 16 0x60000) 0x10000).la .write = .error 0x3 :=
  ⟨⟨s7_of (s5_of rfl rfl rfl) rfl rfl rfl, rfl, rfl, rfl, rfl⟩, rfl⟩

/-- V39. -/
theorem test_witness_InfoOperandPageFaults_out :
    S8AddressesPass (w0Field 8 0x60000) regs1 0x10000 ∧
      (w0Field 8 0x60000).translate (pcmdOperand (w0Field 8 0x60000) 0x10000).la .write = .ok 0x30000 ∧
      (w0Field 8 0x60000).translate (outOperand (w0Field 8 0x60000) 0x10000).la .write = .error 0x3 :=
  ⟨⟨s7_of (s5_of rfl rfl rfl) rfl rfl rfl, rfl, rfl, rfl, rfl⟩, rfl, rfl⟩

/-- V9 with the last byte of LINADDR, and V10 with the last byte of SECS. -/
theorem test_witness_NonZeroLinaddrOrSecsFaults :
    (S5Passes (w0Info 0x10007 0x01) regs1 ∧ (w0Info 0x10007 0x01).mem.readLe 0x10000 8 ≠ 0) ∧
    S5Passes (w0Info 0x1001F 0x80) regs1 ∧ (w0Info 0x1001F 0x80).mem.readLe 0x10018 8 ≠ 0 :=
  ⟨⟨s5_of rfl rfl rfl, by decide⟩, s5_of rfl rfl rfl, by decide⟩

/-- The PAGEINFO of E1 reused for another page, with LINADDR as E1's eviction left it. -/
def w0Reused : State :=
  { w0With 0x10000 0x80003000 0x80002010 with mem := (ewbCommit w0 ctx1).mem }

theorem test_witness_NonZeroLinaddrOrSecsFaults_reused :
    (EwbReady w0 ctx1 ∧ Evictable w0 ctx1 ids1 ∧ exec .enclsEwb w0 = .next (ewbCommit w0 ctx1)) ∧
    (w0.epcm ctx1.regs.paSrc).enclaveAddress ≠ 0 ∧ w0Reused.mem = (ewbCommit w0 ctx1).mem ∧ w0Reused.cfg = w0.cfg ∧
    S5Passes w0Reused (regs 0x80003000 0x80002010) ∧ w0Reused.translate 0x10000 .write = .ok ctx1.info.paPi :=
  ⟨⟨test_w0_ready, test_w0_evictable, test_w0_runs⟩, by decide, rfl, rfl, s5_of rfl rfl rfl, rfl⟩

/-- V11 and V12. -/
theorem test_witness_MisalignedInfoOperandFaults :
    (S7Passes (w0Field 16 0x30040) regs1 0x10000 ∧
      (pcmdOperand (w0Field 16 0x30040) 0x10000).la.toNat % 128 ≠ 0) ∧
    S7Passes (w0Field 8 0x20800) regs1 0x10000 ∧ (outOperand (w0Field 8 0x20800) 0x10000).la.toNat % 4096 ≠ 0 :=
  ⟨⟨s7_of (s5_of rfl rfl rfl) rfl rfl rfl, by decide⟩, s7_of (s5_of rfl rfl rfl) rfl rfl rfl, by decide⟩

/-- W0 in protected mode with the DS limit at 0x2FFFF. -/
def prot (highest : Nat) : State := { w0 with mode := .modeProt, ds := { base := 0, lowest := 0, highest := highest } }

/-- V37 at S1; a slot and an output page that are not canonical; the last byte of the source page at the DS limit. -/
theorem test_witness_AddressTestFaults :
    (Admitted (w0With 0x0000800000010000 0x80001000 0x80002008) ∧
      (w0With 0x0000800000010000 0x80001000 0x80002008).addrOk
        ((w0With 0x0000800000010000 0x80001000 0x80002008).operand 0x0000800000010000) 32 = false) ∧
    (S2Passes (w0With 0x10000 0x80001000 0x0000800000000000) 0x80001000 ∧
      (w0With 0x10000 0x80001000 0x0000800000000000).addrOk
        ((w0With 0x10000 0x80001000 0x0000800000000000).operand 0x0000800000000000) 8 = false) ∧
    (S7Passes (w0Field 8 0x0000800000000000) regs1 0x10000 ∧
      (w0Field 8 0x0000800000000000).addrOk (outOperand (w0Field 8 0x0000800000000000) 0x10000) 4096 = false) ∧
    ((prot 0x80001FFF).mode = .modeProt ∧ (prot 0x80001FFF).addrOk ((prot 0x80001FFF).operand 0x80001000) 4096 = true ∧
      (prot 0x80001FFE).addrOk ((prot 0x80001FFE).operand 0x80001000) 4096 = false) ∧
    w0.mode = .mode64 ∧ w0.addrOk (at64 0x00007FFFFFFFF000) 4096 = true ∧
      w0.addrOk (at64 0xFFFF800000000000) 4096 = true :=
  ⟨⟨admitted_of rfl, by decide⟩, ⟨s2_of (s1_of rfl rfl rfl rfl rfl rfl) rfl rfl, by decide⟩, ⟨s7_of (s5_of rfl rfl rfl) rfl rfl rfl, by decide⟩,
    ⟨rfl, by decide, by decide⟩, rfl, by decide, by decide⟩

/-- V42 with the output page in the EPC. -/
theorem test_witness_NonEpcOperandsRefused_epc :
    S8AddressesPass (w0Field 8 0x80005000) regs1 0x10000 ∧
      (w0Field 8 0x80005000).translate (pcmdOperand (w0Field 8 0x80005000) 0x10000).la .write = .ok 0x30000 ∧
      (w0Field 8 0x80005000).translate (outOperand (w0Field 8 0x80005000) 0x10000).la .write = .ok 0x80005000 ∧
      (w0Field 8 0x80005000).inEpc 0x80005000 = true :=
  ⟨⟨s7_of (s5_of rfl rfl rfl) rfl rfl rfl, rfl, rfl, rfl, rfl⟩, rfl, rfl, rfl⟩

/-- V43 with the PCMD at the end of the output page: they share the byte 0x20FFF. -/
theorem test_witness_NonEpcOperandsRefused_overlap :
    S8AddressesPass (w0Field 16 0x20F80) regs1 0x10000 ∧
      (w0Field 16 0x20F80).translate (pcmdOperand (w0Field 16 0x20F80) 0x10000).la .write = .ok 0x20F80 ∧
      (w0Field 16 0x20F80).translate (outOperand (w0Field 16 0x20F80) 0x10000).la .write = .ok 0x20000 ∧
      (w0Field 16 0x20F80).inEpc 0x10000 = false ∧ (w0Field 16 0x20F80).inEpc 0x20000 = false ∧
      (w0Field 16 0x20F80).inEpc 0x20F80 = false ∧
      (0x20000 ≤ 0x20FFF ∧ 0x20FFF < 0x20000 + 4096 ∧ 0x20F80 ≤ 0x20FFF ∧ 0x20FFF < 0x20F80 + 128) :=
  ⟨⟨s7_of (s5_of rfl rfl rfl) rfl rfl rfl, rfl, rfl, rfl, rfl⟩, rfl, rfl, rfl, rfl, rfl, by decide⟩

theorem s8_of {s : State} {r : RegOperands} {m : InfoOperands} (h : S5Passes s r) (hm : ewbInfoOperands s r = .ok m) :
    S8Passes s r m := ⟨h, info_of hm⟩

/-- V14, V13 and V15. -/
theorem test_witness_SourceConflictOutcome :
    (S8Passes (guest (conflicting w0)) regs1 info ∧ (guest (conflicting w0)).srcConflict = true ∧
      (guest (conflicting w0)).vmxCond = true ∧ (guest (conflicting w0)).epcVirtExtensions = true) ∧
    (S8Passes (conflicting w0) regs1 info ∧ (conflicting w0).srcConflict = true ∧
      (conflicting w0).vmxCond = false) ∧
    S8Passes { guest (conflicting w0) with epcVirtExtensions := false } regs1 info ∧
      ({ guest (conflicting w0) with epcVirtExtensions := false } : State).epcVirtExtensions = false :=
  ⟨⟨s8_of (s5_of rfl rfl rfl) rfl, rfl, rfl, rfl⟩, ⟨s8_of (s5_of rfl rfl rfl) rfl, rfl, rfl⟩,
    s8_of (s5_of rfl rfl rfl) rfl, rfl⟩

/-- A run with a single agent whose environment claims a conflict all the same: no conflict. -/
theorem test_witness_SourceConflictOutcome_alone :
    ({ conflicting w0 with otherAgents := false } : State).otherInFlight = false ∧
      ∃ t, exec .enclsEwb { conflicting w0 with otherAgents := false } = .next t :=
  ⟨rfl, _, execEnclsEwb_of_ready (ready_of rfl : EwbReady { conflicting w0 with otherAgents := false } ctx1)⟩

theorem test_witness_VmExitWritesFiveFields :
    S8Passes (guest (conflicting w0)) regs1 info ∧ (guest (conflicting w0)).srcConflict = true ∧
      (guest (conflicting w0)).vmxCond = true ∧ (guest (conflicting w0)).epcVirtExtensions = true :=
  ⟨s8_of (s5_of rfl rfl rfl) rfl, rfl, rfl, rfl⟩

theorem test_witness_VmExitIsTerminal : ((guest w0).deliverVmExit 0x80001000 0x80001000).vmExited = true := rfl

def withEnv (e : Environment) : State := { w0 with env := e }

/-- V16, V45 and V17. -/
theorem test_witness_OtherConflictsFault :
    (S8Passes (withEnv { quiet with vaModified := true }) regs1 info ∧
      (withEnv { quiet with vaModified := true }).srcConflict = false) ∧
    (S8Passes (withEnv { quiet with secsConflict := true }) regs1 info ∧
      (withEnv { quiet with secsConflict := true }).srcConflict = false) ∧
    S8Passes (withEnv { quiet with trackingResourceInUse := true }) regs1 info ∧
      (withEnv { quiet with trackingResourceInUse := true }).srcConflict = false :=
  ⟨⟨s8_of (s5_of rfl rfl rfl) rfl, rfl⟩, ⟨s8_of (s5_of rfl rfl rfl) rfl, rfl⟩, s8_of (s5_of rfl rfl rfl) rfl, rfl⟩

theorem source_of {s : State} {r : RegOperands} {k : SourceKind} (h : ewbSourceKind s r = .ok k) : SourceReady s r k :=
  (ewbSourceKind_eq_ok_iff s r k).mp h

/-- No other SGX instruction in flight; and a SECS conflict while a VA page is evicted (rule R126). -/
theorem test_witness_OtherConflictsFault_runs :
    (S8Passes (withEnv { quiet with inFlight := false, vaModified := true, secsConflict := true }) regs1 info ∧
      SourceReady (withEnv { quiet with inFlight := false, vaModified := true, secsConflict := true }) regs1
        (.child 0x80000000) ∧
      (withEnv { quiet with inFlight := false, vaModified := true, secsConflict := true }).otherInFlight = false) ∧
    S8Passes { w5 with env := { quiet with secsConflict := true } } ctx5.regs info ∧
      SourceReady { w5 with env := { quiet with secsConflict := true } } ctx5.regs .va ∧
      ({ w5 with env := { quiet with secsConflict := true } } : State).srcConflict = false ∧
      ({ w5 with env := { quiet with secsConflict := true } } : State).vaModified = false ∧
      ({ w5 with env := { quiet with secsConflict := true } } : State).trackingResourceInUse = false ∧
      ∀ p, SourceKind.va ≠ .child p :=
  ⟨⟨s8_of (s5_of rfl rfl rfl) rfl, source_of rfl, rfl⟩, s8_of (s5_of rfl rfl rfl) rfl, source_of rfl, rfl, rfl, rfl,
    fun _ h => by cases h⟩

/-- V18. -/
theorem test_witness_InvalidSourcePageFaults :
    S8Passes (w0With 0x10000 0x80004000 0x80002008) (regs 0x80004000 0x80002008) info ∧
      Quiet (w0With 0x10000 0x80004000 0x80002008) (regs 0x80004000 0x80002008) ∧
      ((w0With 0x10000 0x80004000 0x80002008).epcm 0x80004000).valid = false :=
  ⟨s8_of (s5_of rfl rfl rfl) rfl, ⟨rfl, rfl, rfl, rfl⟩, rfl⟩

/-- V19 and V20. -/
theorem test_witness_BadVaPageFaults :
    (S11Passes (w0With 0x10000 0x80001000 0x80004008) (regs 0x80001000 0x80004008) info ∧
      ((w0With 0x10000 0x80001000 0x80004008).epcm 0x80004008).valid = false) ∧
    S11Passes (w0With 0x10000 0x80001000 0x80003008) (regs 0x80001000 0x80003008) info ∧
      ((w0With 0x10000 0x80001000 0x80003008).epcm 0x80003008).pt ≠ .va :=
  ⟨⟨⟨s8_of (s5_of rfl rfl rfl) rfl, ⟨rfl, rfl, rfl, rfl⟩, rfl⟩, rfl⟩,
    ⟨s8_of (s5_of rfl rfl rfl) rfl, ⟨rfl, rfl, rfl, rfl⟩, rfl⟩, by decide⟩

/-- W0 with E1's entry changed. -/
def w0Entry (f : EpcmEntry → EpcmEntry) : State :=
  { w0 with epc := epc0.map fun e => if e.1 = 0x80001000 then (e.1, { e.2 with entry := f e.2.entry }) else e }

theorem s12_of {s : State} {r : RegOperands} {m : InfoOperands} (h : S8Passes s r m) (hq : Quiet s r)
    (h1 : (s.epcm r.paSrc).valid = true) (h2 : (s.epcm r.paVa).valid = true) (h3 : (s.epcm r.paVa).pt = .va) :
    S12Passes s r m := ⟨⟨h, hq, h1⟩, h2, h3⟩

/-- V34: blocking not correct and BLOCKED = 0. -/
theorem test_witness_PageTypeChecks_blocking :
    S12Passes { w3 with env := { quiet with eblockCorrect := false } } (regs 0x80003000 0x80002008) info ∧
      isChildType (w3.epcm 0x80003000).pt = true ∧ (w3.epcm 0x80003000).enclaveSecs = some 0x80000000 ∧
      w3.isValidSecs 0x80000000 = true :=
  ⟨s12_of (s8_of (s5_of rfl rfl rfl) rfl) ⟨rfl, rfl, rfl, rfl⟩ rfl rfl rfl, rfl, rfl, rfl⟩

theorem test_witness_PageTypeChecks_type :
    S12Passes (w0Entry fun e => { e with pt := .other 7 }) regs1 info ∧
      namedType ((w0Entry fun e => { e with pt := .other 7 }).epcm 0x80001000).pt = false :=
  ⟨s12_of (s8_of (s5_of rfl rfl rfl) rfl) ⟨rfl, rfl, rfl, rfl⟩ rfl rfl rfl, rfl⟩

/-- A link to the VA page E2. -/
theorem test_witness_PageTypeChecks_link :
    S12Passes (w0Entry fun e => { e with enclaveSecs := some 0x80002000 }) regs1 info ∧
      isChildType ((w0Entry fun e => { e with enclaveSecs := some 0x80002000 }).epcm 0x80001000).pt = true ∧
      ∀ p, ((w0Entry fun e => { e with enclaveSecs := some 0x80002000 }).epcm 0x80001000).enclaveSecs = some p →
        (w0Entry fun e => { e with enclaveSecs := some 0x80002000 }).isValidSecs p = false := by
  refine ⟨s12_of (s8_of (s5_of rfl rfl rfl) rfl) ⟨rfl, rfl, rfl, rfl⟩ rfl rfl rfl, rfl, fun p hp => ?_⟩
  obtain rfl : 0x80002000 = p := Option.some.inj hp
  rfl

/-- A `#GP(0)` (V13), a `#PF` (V5) and the fault at CPL 3 (V36). -/
theorem test_witness_FaultRecordContents :
    (∃ f, exec .enclsEwb (conflicting w0) = .fault f) ∧
      (∃ f, exec .enclsEwb (w0With 0x10000 0x50000000 0x80002008) = .fault f) ∧
      ∃ f, exec .enclsEwb { w0 with cpl := 3 } = .fault f := ⟨⟨_, rfl⟩, ⟨_, rfl⟩, _, rfl⟩

/-- W0 with the entry of an EPC page other than the source page changed. -/
def w0Other (page : Nat) (f : EpcmEntry → EpcmEntry) : State :=
  { w0 with epc := epc0.map fun e => if e.1 = page then (e.1, { e.2 with entry := f e.2.entry }) else e }

/-- Item 12: an entry of another page with an unnamed type, with a link to a VA page, and an EPC page listed twice;
items 8 and 9 for the source page itself at S13. -/
theorem test_epcm_premises_refused :
    refusalOf (exec .enclsEwb (w0Other 0x80007000 fun e => { e with pt := .other 7 })) = some .startTypeNotNamed ∧
      refusalOf (exec .enclsEwb (w0Other 0x80007000 fun e => { e with enclaveSecs := some 0x80002000 })) =
        some .startLinkBroken ∧
      refusalOf (exec .enclsEwb { w0 with epc := epc0 ++ epc0.take 1 }) = some .epcmNotTotal ∧
      refusalOf (exec .enclsEwb (w0Other 0x80001000 fun e => { e with pt := .other 7 })) = some .pageTypeNotNamed ∧
      refusalOf (exec .enclsEwb (w0Other 0x80001000 fun e => { e with enclaveSecs := some 0x80002000 })) =
        some .secsLinkBroken := ⟨rfl, rfl, rfl, rfl, rfl⟩

/-- A mode with no exception list, RIP 3 below 2^64, and an EPC page other than the source page of an unnamed type. -/
theorem test_witness_UnadmittedStateRefused :
    ¬Admitted { w0 with mode := .compatibility } ∧ ¬Admitted { w0 with rip := 0xFFFFFFFFFFFFFFFD } ∧
      ¬Admitted (w0Other 0x80007000 fun e => { e with pt := .other 7 }) ∧
      Admitted { w0 with rip := 0xFFFFFFFFFFFFFFFC } := by
  refine ⟨fun h => ?_, fun h => ?_, fun h => ?_, admitted_of rfl⟩
  · rcases h.mode with h | h <;> cases h
  · exact absurd (h.rip64 rfl) (by decide)
  · have hp := (premises_eq_ok_iff _ ()).mpr h
    cases hp

/-! ### Memory, addresses and the whole machine -/

/-- Byte 7, the last of an 8-byte write, and the byte after it. -/
theorem test_witness_LittleEndianMemory : 7 < 8 ∧ ¬(0x10000 ≤ 0x10008 ∧ 0x10008 < 0x10000 + 8) := by decide

/-- An operand of each size at the end of its page. -/
theorem test_witness_OperandStaysInItsPage :
    (w0.translate 0x20000 .write = .ok 0x20000 ∧ (0x20000 : Word).toNat % 4096 = 0 ∧ 4095 < 4096) ∧
    (w0.translate 0x20F80 .write = .ok 0x20F80 ∧ (0x20F80 : Word).toNat % 128 = 0 ∧ 127 < 128) ∧
    (w0.translate 0x20FE0 .write = .ok 0x20FE0 ∧ (0x20FE0 : Word).toNat % 32 = 0 ∧ 31 < 32) ∧
    w0.translate 0x20FF8 .write = .ok 0x20FF8 ∧ (0x20FF8 : Word).toNat % 8 = 0 ∧ 7 < 8 :=
  ⟨⟨rfl, rfl, by decide⟩, ⟨rfl, rfl, by decide⟩, ⟨rfl, rfl, by decide⟩, rfl, rfl, by decide⟩

/-- V41: the registers of W0 with other upper halves. -/
theorem test_witness_UpperHalvesIgnoredInProt :
    (prot 0xFFFFFFFF).mode = .modeProt ∧
      (0xDEADBEEF00010000 : Word).setWidth 32 = (prot 0xFFFFFFFF).regs.rbx.setWidth 32 ∧
      (0xDEADBEEF80001000 : Word).setWidth 32 = (prot 0xFFFFFFFF).regs.rcx.setWidth 32 ∧
      (0xDEADBEEF80002008 : Word).setWidth 32 = (prot 0xFFFFFFFF).regs.rdx.setWidth 32 :=
  ⟨rfl, by decide, by decide, by decide⟩

theorem test_witness_DsIgnoredInMode64 : w0.mode = .mode64 := rfl

theorem test_w0_invariant : w0.Inv where
  memory := by decide
  epcOrdered := by decide
  epcAligned := by decide
  types := by decide
  links := fun e he hv hc => ⟨0x80000000, by
    have all : ∀ e ∈ w0.epc, e.2.entry.valid = true → isChildType e.2.entry.pt = true →
        e.2.entry.enclaveSecs = some 0x80000000 := by decide
    exact all e he hv hc, rfl⟩

theorem test_witness_StepKeepsInvariant : w0.Inv ∧ ∃ t, step w0 = .next t := ⟨test_w0_invariant, _, test_w0_steps⟩

theorem test_witness_ChildrenOnlyLeave_step :
    ∃ t, step w0 = .next t ∧ t.hasChild 0x80000000 = true := by
  refine ⟨_, test_w0_steps, ?_⟩
  rw [show ewbCommit w0 ctx1 = ewbEvict w0 ctx1 ids1 from rfl]
  unfold State.hasChild
  rw [ewbEvict_epc]
  decide

/-- W0 with E1 the only child page of E0. -/
def onlyChild : State := { w0 with epc := epc0.filter fun e => e.1 != 0x80003000 && e.1 != 0x80007000 }

theorem test_witness_ChildrenOnlyLeave_last :
    EwbReady onlyChild ctx1 ∧ Evictable onlyChild ctx1 ids1 ∧ (∃ t, exec .enclsEwb onlyChild = .next t) ∧
      ∀ e ∈ onlyChild.epc, e.2.entry.isChildOf 0x80000000 = true → e.1 = pageOf ctx1.regs.paSrc :=
  ⟨ready_of rfl, ⟨rfl, rfl, rfl⟩, ⟨_, execEnclsEwb_of_ready (ready_of rfl : EwbReady onlyChild ctx1)⟩, by decide⟩

/-- The state after E1's eviction, with PAGEINFO as before it (P3 of 95_test_vectors.md, step 3): S1 to S10 pass. -/
def w0Again : State :=
  { ewbCommit w0 ctx1 with
    regs := { (ewbCommit w0 ctx1).regs with rax := 0xB, rbx := 0x10000, rdx := 0x80002008 }
    mem := w0.mem
    env := quiet }

theorem test_witness_EvictedPageIsNotEvictedAgain :
    EwbReady w0 ctx1 ∧ Evictable w0 ctx1 ids1 ∧ exec .enclsEwb w0 = .next (ewbCommit w0 ctx1) ∧
      S8Passes w0Again regs1 info ∧ Quiet w0Again regs1 :=
  ⟨test_w0_ready, test_w0_evictable, test_w0_runs, s8_of (s5_of rfl rfl rfl) rfl, rfl, rfl, rfl, rfl⟩

/-- The VM exit on a second execution: a guest's page, evicted, in conflict. -/
theorem test_witness_EvictedPageIsNotEvictedAgain_vmExit :
    EwbReady (guest w0) ctx1 ∧ Evictable (guest w0) ctx1 ids1 ∧
      ∃ v, exec .enclsEwb
        { ewbCommit (guest w0) ctx1 with
          regs := { (ewbCommit (guest w0) ctx1).regs with rax := 0xB, rbx := 0x10000, rdx := 0x80002008 }
          mem := w0.mem
          env := { quiet with srcConflict := true } } = .next v :=
  ⟨ready_of rfl, ⟨rfl, rfl, rfl⟩, _, rfl⟩

theorem test_witness_StepKeepsConfiguration : ∃ t, step w0 = .next t := ⟨_, test_w0_steps⟩

/-- Step 8 of P2 (95_test_vectors.md), with a store to regular memory before it. -/
def env8 : List EnvWrite :=
  [.bytes 0x10000 [0x55], .epcmField 0x80003000 (.blocked true), .register .rax 0xB, .rip 0x401100]

/-- What it names, at the ends of what it names; and bytes of the EPC that a step names are not written. -/
theorem test_witness_EnvStepWritesOnlyWhatItNames :
    ((∀ v, .register .rcx v ∉ env8) ∧ (∀ a bs, .bytes a bs ∈ env8 → ¬(a ≤ 0x10001 ∧ 0x10001 < a + bs.length)) ∧
      (∀ f, .epcmField (pageOf 0x80003000) f ∈ env8 → f.name ≠ .valid) ∧ w0.inEpc 0x80003000 = true) ∧
    ((w0.envStep env8).epcm 0x80003000).blocked = true ∧ (w0.envStep env8).rip = 0x401100 ∧
      w0.inEpc 0x80002010 = true ∧ (w0.envStep [.bytes 0x80002010 [0x55]]).mem = w0.mem := by
  refine ⟨⟨fun v h => ?_, fun a bs h => ?_, fun f h => ?_, rfl⟩, rfl, rfl, rfl, rfl⟩
  · simp [env8] at h
  · simp only [env8, List.mem_cons, EnvWrite.bytes.injEq, reduceCtorEq, List.not_mem_nil, or_false] at h
    obtain ⟨rfl, rfl⟩ := h
    decide
  · simp only [env8, List.mem_cons, EnvWrite.epcmField.injEq, reduceCtorEq, List.not_mem_nil, or_false, false_or] at h
    obtain ⟨-, rfl⟩ := h
    decide

/-! ### Runs (rule R153) -/

/-- One `ENCLS`: the run ends at the address after it. -/
theorem test_run_completes : (w0.run { last := 0x401003, writes := [[]] }).ending = .completed := by rfl

/-- The run ends in the `#PF` at E4, whose entry is not valid; a second `ENCLS` listed is not executed. -/
theorem test_run_ends_in_fault :
    (((w0With 0x10000 0x80004000 0x80002008).run
        { last := 0x401043, writes := [[.bytes 0x401040 [0x0F, 0x01, 0xCF], .rip 0x401040], []] }).ending) =
      .fault (.pageFault ⟨14, some (Config.freePfErrorCode 0), some 0x80004000, 0x401040⟩) := by rfl

end Sys2Proof.Machine.Tests
end

section
/-! Proofs about `ENCLS[EWB]`: a misaligned operand is `#GP(0)` (rules R87, R89, R94), and what an eviction
leaves in PAGEINFO (rule R111). -/

namespace Sys2Proof.Machine

/-! ### Stops at a `#GP(0)` test -/

theorem gpUnless_of_false {b : Bool} (h : b = false) : gpUnless b = .error (.exception .generalProtection) := by
  rw [h]
  rfl

/-- A sequence that ends in `#GP(0)` ends in it too after one more `#GP(0)` test, whatever that test finds: so no
misalignment hides behind the limit or canonical test placed before it (rule R135). -/
theorem gpUnless_bind_of_gp (b : Bool) {α : Type} {f : Unit → Except Stop α}
    (h : f () = .error (.exception .generalProtection)) :
    (gpUnless b >>= f) = .error (.exception .generalProtection) := by
  cases b with
  | false => rfl
  | true => exact h

theorem aligned_eq_false_iff (la : Word) (n : Nat) : aligned la n = false ↔ la.toNat % n ≠ 0 := by
  rw [← Bool.not_eq_true, aligned_iff]

/-- The alignment test of two operands fails as soon as one of them is misaligned. -/
theorem aligned_and_eq_false {la₁ la₂ : Word} {n₁ n₂ : Nat} (h : la₁.toNat % n₁ ≠ 0 ∨ la₂.toNat % n₂ ≠ 0) :
    (aligned la₁ n₁ && aligned la₂ n₂) = false := by
  rwa [Bool.and_eq_false_iff, aligned_eq_false_iff, aligned_eq_false_iff]

/-- An operand that translates outside the EPC is a page fault at its linear address, with a free error code
(rules R49, R134). -/
theorem resolveInEpc_of_outside {s : State} {o : Operand} {pa : Nat} (ht : s.translate o.la .write = .ok pa)
    (hi : s.inEpc pa = false) : s.resolveInEpc o = .error (s.ownPageFault o) := by
  rw [State.resolveInEpc, bind_of_ok ((resolve_eq_ok_iff s o pa).mpr ht), hi]
  rfl

/-! ### S1 to S5 -/

/-- At S1 a misaligned PAGEINFO or source page stops, after the limit or canonical test or at it (rule R87). -/
theorem ewbRegOperands_of_misaligned {s : State}
    (h : (s.operand s.regs.rbx).la.toNat % 32 ≠ 0 ∨ (s.operand s.regs.rcx).la.toNat % 4096 ≠ 0) :
    ewbRegOperands s = .error (.exception .generalProtection) := by
  rw [ewbRegOperands]
  exact gpUnless_bind_of_gp _ (bind_of_error (gpUnless_of_false (aligned_and_eq_false h)) _)

/-- S1 passes its limit or canonical test (rule R135). -/
theorem S1Passes.addrTest {s : State} (h : S1Passes s) :
    gpUnless (s.addrOk (s.operand s.regs.rbx) 32 && s.addrOk (s.operand s.regs.rcx) 4096) = .ok () :=
  (gpUnless_eq_ok_iff _ _).mpr (Bool.and_eq_true_iff.mpr ⟨h.piAddr, h.srcAddr⟩)

/-- S1 passes its alignment test (rule R87). -/
theorem S1Passes.alignTest {s : State} (h : S1Passes s) :
    gpUnless (aligned (s.operand s.regs.rbx).la 32 && aligned (s.operand s.regs.rcx).la 4096) = .ok () :=
  (gpUnless_eq_ok_iff _ _).mpr
    (Bool.and_eq_true_iff.mpr ⟨(aligned_iff _ _).mpr h.piAligned, (aligned_iff _ _).mpr h.srcAligned⟩)

/-- After S1 the next thing that can stop S1 to S5 is S2 (rule R88). -/
theorem ewbRegOperands_of_s2_stops {s : State} {e : Stop} (h1 : S1Passes s)
    (h : s.resolveInEpc (s.operand s.regs.rcx) = .error e) : ewbRegOperands s = .error e := by
  rw [ewbRegOperands, reg_rbx, reg_rcx, bind_of_ok h1.addrTest, bind_of_ok h1.alignTest, bind_of_error h]

/-- At S3, once the source page resolves within the EPC, a misaligned slot stops (rule R89). -/
theorem ewbRegOperands_of_misaligned_slot {s : State} {paSrc : Nat} (h2 : S2Passes s paSrc)
    (h : (s.operand s.regs.rdx).la.toNat % 8 ≠ 0) : ewbRegOperands s = .error (.exception .generalProtection) := by
  have source := (resolveInEpc_eq_ok_iff s _ paSrc).mpr ⟨h2.srcPhysical, h2.srcInEpc⟩
  rw [ewbRegOperands, reg_rbx, reg_rcx, bind_of_ok h2.s1.addrTest, bind_of_ok h2.s1.alignTest, bind_of_ok source]
  exact gpUnless_bind_of_gp _ (bind_of_error (gpUnless_of_false ((aligned_eq_false_iff _ _).mpr h)) _)

/-! ### S6 to S8 -/

/-- At S8 a misaligned PCMD or output page stops, before either is translated (rule R94). -/
theorem ewbInfoOperands_of_misaligned {s : State} {r : RegOperands} {paPi : Nat} (h7 : S7Passes s r paPi)
    (h : (pcmdOperand s paPi).la.toNat % 128 ≠ 0 ∨ (outOperand s paPi).la.toNat % 4096 ≠ 0) :
    ewbInfoOperands s r = .error (.exception .generalProtection) := by
  rw [ewbInfoOperands, bind_of_ok ((resolve_eq_ok_iff s r.pi paPi).mpr h7.piPhysical)]
  refine gpUnless_bind_of_gp _ (gpUnless_bind_of_gp _ ?_)
  exact bind_of_error (gpUnless_of_false (aligned_and_eq_false h)) _

/-! ### What an eviction leaves in memory -/

/-- A page that may be evicted is. -/
theorem exec_of_evictable {s : State} {c : EwbContext} {ids : EnclaveIds} (hr : EwbReady s c)
    (he : Evictable s c ids) : exec .enclsEwb s = .next (ewbEvict s c ids) := by
  rw [exec, execEnclsEwb_of_ready hr, ewbCommit, (ewbEvictable_eq_ok_iff s c ids).mpr he]

theorem ewbEvict_mem (s : State) (c : EwbContext) (ids : EnclaveIds) :
    (ewbEvict s c ids).mem = s.mem.applyWrites (evictWrites s c ids) := by
  rw [ewbEvict_eq]

/-- Of PAGEINFO an eviction writes LINADDR only: the other operands share no byte with it (rules R66, R67, R111). -/
theorem read_pageInfo_outside_linaddr {s : State} {c : EwbContext} {ids : EnclaveIds} (hr : EwbReady s c) {i : Nat}
    (hi : i < 32) (hl : ¬(s.cfg.pageInfo.linaddr ≤ i ∧ i < s.cfg.pageInfo.linaddr + 8)) :
    (s.mem.applyWrites (evictWrites s c ids)).read (c.info.paPi + i) = s.mem.read (c.info.paPi + i) := by
  obtain ⟨hout, hpcmd, hva, hsrc⟩ := info_only hr (x := c.info.paPi + i) ⟨by omega, by omega⟩
  refine read_applyWrites_outside _ _ _ fun w hw hc => ?_
  rcases evictWrites_cover hr.admitted.parameters hw hc with h | h | h | h | h
  · exact hout h
  · exact hpcmd h
  · exact hl (by omega)
  · exact hva h
  · exact hsrc h

/-! ### The obligations -/

/-- Settles O20: LINADDR holds what the write of S21 put there, and no write touches the rest of PAGEINFO. -/
theorem linaddrWritten : Obligations.LinaddrWritten := by
  intro s c ids hr he
  refine ⟨_, exec_of_evictable hr he, ?_, fun i hi hl => ?_⟩
  · rw [ewbEvict_mem]
    exact read_linaddr hr
  · rw [ewbEvict_mem]
    exact read_pageInfo_outside_linaddr hr hi hl

/-- Settles O29: both tests of S1 end in `#GP(0)`. -/
theorem misalignedRegisterOperandFaults : Obligations.MisalignedRegisterOperandFaults := by
  intro s ha hc h
  exact execEnclsEwb_of_regOperands ha hc (ewbRegOperands_of_misaligned h)

/-- Settles O31: after S2 both tests of S3 end in `#GP(0)`; before it, S2 faults and the slot is not looked at. -/
theorem misalignedSlotFaults : Obligations.MisalignedSlotFaults := by
  refine ⟨fun s paSrc h2 h => ?_, fun s pa h1 ht hi _ => ⟨Config.freePfErrorCode s.drawCount, ?_⟩⟩
  · exact execEnclsEwb_of_regOperands h2.s1.admitted h2.s1.cpl (ewbRegOperands_of_misaligned_slot h2 h)
  · exact execEnclsEwb_of_regOperands h1.admitted h1.cpl
      (ewbRegOperands_of_s2_stops h1 (resolveInEpc_of_outside ht hi))

/-- Settles O36: after S7 both tests of S8 end in `#GP(0)`. -/
theorem misalignedInfoOperandFaults : Obligations.MisalignedInfoOperandFaults := by
  intro s r paPi h7 h
  exact execEnclsEwb_of_infoOperands h7.s5.admitted h7.s5.cpl h7.s5.regs (ewbInfoOperands_of_misaligned h7 h)

end Sys2Proof.Machine
end

section
/-! Proofs about the encoding and the step: decoding and encoding are inverse to each other, and what the step makes of
the bytes at RIP (rules R57, R72 to R78). -/

namespace Sys2Proof

/-! ### The decoder -/

/-- What is left of a stream after some bytes: the stream begins with them. -/
theorem stripBytes_eq_some_iff (bytes stream rest : List Byte) :
    stripBytes bytes stream = some rest ↔ stream = bytes ++ rest := by
  induction bytes generalizing stream with
  | nil => simp [stripBytes]
  | cons b bs ih =>
    cases stream with
    | nil => simp [stripBytes]
    | cons c cs =>
      by_cases h : b = c
      · simp [stripBytes, h, ih]
      · simp [stripBytes, h, Ne.symm h]

/-- A selector chooses a leaf exactly when it is that leaf's: all 32 bits are compared (rule R74). -/
theorem leafOf_eq_some_iff (selector : BitVec 32) (i : Instr) : leafOf selector = some i ↔ selector = selectorOf i := by
  have mask : selector &&& 0xFFFFFFFF = selector := BitVec.and_allOnes
  cases i
  simp only [leafOf, opcodeTable, selectorOf, List.find?_singleton, mask, beq_iff_eq]
  by_cases h : selector = 0x0000000B
  · rw [if_pos h]
    exact iff_of_true rfl h
  · rw [if_neg h]
    exact iff_of_false (by simp) h

/-- The decoder answers exactly the instruction whose encoding the stream and the selector are. -/
theorem decode_eq_ok_iff (cfg : Config) (stream : List Byte) (selector : BitVec 32) (i : Instr) (rest : List Byte) :
    decode cfg stream selector = .ok (i, rest) ↔
      stream = (encode cfg i).bytes ++ rest ∧ selector = (encode cfg i).selector := by
  rw [encode, ← stripBytes_eq_some_iff, ← leafOf_eq_some_iff, decode]
  cases stripBytes cfg.enclsBytes stream with
  | none => simp
  | some r => cases leafOf selector <;> simp [and_comm]

/-- Bytes that do not begin with those of `ENCLS` are no instruction, whatever the selector (rule R75). -/
theorem decode_of_not_encls {cfg : Config} {stream : List Byte} (selector : BitVec 32)
    (h : ∀ rest, stream ≠ cfg.enclsBytes ++ rest) : decode cfg stream selector = .error .notEncls := by
  have none_left : stripBytes cfg.enclsBytes stream = none :=
    Option.eq_none_iff_forall_ne_some.mpr fun rest hr => h rest ((stripBytes_eq_some_iff _ _ _).mp hr)
  rw [decode, none_left]

/-- `ENCLS` with a selector that no leaf has is no instruction of the table (rule R78). -/
theorem decode_of_other_leaf (cfg : Config) (rest : List Byte) {selector : BitVec 32}
    (h : ∀ i, selector ≠ selectorOf i) :
    decode cfg (cfg.enclsBytes ++ rest) selector = .error (.otherLeaf selector) := by
  have no_leaf : leafOf selector = none :=
    Option.eq_none_iff_forall_ne_some.mpr fun i hi => h i ((leafOf_eq_some_iff _ _).mp hi)
  rw [decode, (stripBytes_eq_some_iff _ _ _).mpr rfl, no_leaf]

end Sys2Proof

namespace Sys2Proof.Machine

/-! ### The fetch -/

theorem fetchBytes_succ_of_error {s : State} {la : Word} {r : Refusal} (n : Nat) (h : s.fetchByte la = .error r) :
    s.fetchBytes la (n + 1) = .error r := by
  rw [State.fetchBytes, h]

theorem fetchBytes_succ_of_ok {s : State} {la : Word} {b : Byte} (n : Nat) (h : s.fetchByte la = .ok b) :
    s.fetchBytes la (n + 1) = (s.fetchBytes (la + 1) n).map (b :: ·) := by
  rw [State.fetchBytes, h]
  cases s.fetchBytes (la + 1) n <;> rfl

/-- The address of a byte counted from the next address on. -/
theorem add_one_add_ofNat (la : Word) (i : Nat) : la + 1 + BitVec.ofNat 64 i = la + BitVec.ofNat 64 (i + 1) := by
  rw [BitVec.add_assoc, BitVec.add_comm 1, BitVec.ofNat_add]
  rfl

/-- Where each address gives a byte, the fetch gives them in increasing address order (rule R57). -/
theorem fetchBytes_eq_ok {s : State} {la : Word} {bs : List Byte}
    (h : ∀ (i : Nat) (hi : i < bs.length), s.fetchByte (la + BitVec.ofNat 64 i) = .ok bs[i]) :
    s.fetchBytes la bs.length = .ok bs := by
  induction bs generalizing la with
  | nil => rfl
  | cons b bs ih =>
    have first : s.fetchByte la = .ok b := by
      have h0 := h 0 (Nat.succ_pos _)
      rwa [BitVec.add_zero] at h0
    have rest : s.fetchBytes (la + 1) bs.length = .ok bs := ih fun i hi => by
      rw [add_one_add_ofNat]
      exact h (i + 1) (by simpa using hi)
    rw [List.length_cons, fetchBytes_succ_of_ok _ first, rest]
    rfl

/-- A byte that cannot be fetched stops the whole fetch. -/
theorem fetchBytes_error_of_byte {s : State} {la : Word} {n i : Nat} {r : Refusal} (hi : i < n)
    (h : s.fetchByte (la + BitVec.ofNat 64 i) = .error r) : ∃ r', s.fetchBytes la n = .error r' := by
  induction n generalizing la i with
  | zero => omega
  | succ n ih =>
    cases hb : s.fetchByte la with
    | error q => exact ⟨q, fetchBytes_succ_of_error n hb⟩
    | ok b =>
      cases i with
      | zero =>
        rw [show la + BitVec.ofNat 64 0 = la by simp, hb] at h
        cases h
      | succ j =>
        obtain ⟨r', hr⟩ := ih (la := la + 1) (i := j) (by omega) (by rwa [add_one_add_ofNat])
        rw [fetchBytes_succ_of_ok n hb, hr]
        exact ⟨r', rfl⟩

theorem fetchByte_of_readable {s : State} {la : Word} {pa : Nat} (ht : s.translate la .read = .ok pa)
    (hw : s.writtenByEwb pa = false) : s.fetchByte la = .ok (s.mem.read pa) := by
  simp [State.fetchByte, ht, hw]

theorem fetchByte_of_written {s : State} {la : Word} {pa : Nat} (ht : s.translate la .read = .ok pa)
    (hw : s.writtenByEwb pa = true) : s.fetchByte la = .error (.fetchFromEwbWrite pa) := by
  simp [State.fetchByte, ht, hw]

/-- The fetch gives `ILEN` bytes (rule R73). -/
theorem length_of_fetchBytes {s : State} {la : Word} {n : Nat} {bs : List Byte} (h : s.fetchBytes la n = .ok bs) :
    bs.length = n := by
  induction n generalizing la bs with
  | zero => cases h; rfl
  | succ n ih =>
    cases hb : s.fetchByte la with
    | error r => rw [fetchBytes_succ_of_error n hb] at h; cases h
    | ok b =>
      rw [fetchBytes_succ_of_ok n hb] at h
      cases hr : s.fetchBytes (la + 1) n with
      | error r => rw [hr] at h; cases h
      | ok cs =>
        rw [hr] at h
        cases h
        exact congrArg (· + 1) (ih hr)

/-! ### The step -/

theorem step_of_fetch_error {s : State} {r : Refusal} (h : s.fetch = .error r) : step s = .refused r := by
  rw [step, h]

theorem step_of_decode_error {s : State} {bytes : List Byte} {e : DecodeError} (h : s.fetch = .ok bytes)
    (hd : decode s.cfg bytes s.eax = .error e) : step s = .refused (decodeRefusal e) := by
  rw [step, h]
  dsimp only
  rw [hd]

theorem step_of_decode_ok {s : State} {bytes rest : List Byte} {i : Instr} (h : s.fetch = .ok bytes)
    (hd : decode s.cfg bytes s.eax = .ok (i, rest)) : step s = exec i s := by
  rw [step, h]
  dsimp only
  rw [hd]

/-- The one instruction of the table runs as EWB. -/
theorem exec_enclsEwb (s : State) : exec .enclsEwb s = execEnclsEwb s := rfl

/-- A step that answers a next state ran EWB. -/
theorem execEnclsEwb_of_step_next {s t : State} (h : step s = .next t) : execEnclsEwb s = .next t := by
  cases hf : s.fetch with
  | error r => rw [step_of_fetch_error hf] at h; cases h
  | ok bytes =>
    cases hd : decode s.cfg bytes s.eax with
    | error e => rw [step_of_decode_error hf hd] at h; cases h
    | ok p =>
      obtain ⟨i, rest⟩ := p
      cases i
      rwa [step_of_decode_ok hf hd] at h

/-! ### The obligations -/

/-- Settles O1: what is encoded decodes to the instruction and the bytes after it. -/
theorem decodeInvertsEncode : Obligations.DecodeInvertsEncode := by
  intro cfg i rest
  exact (decode_eq_ok_iff cfg _ _ i rest).mpr ⟨rfl, rfl⟩

/-- Settles O2: the other direction. -/
theorem encodeInvertsDecode : Obligations.EncodeInvertsDecode := by
  intro cfg stream selector i rest h
  exact (decode_eq_ok_iff cfg stream selector i rest).mp h

/-- Settles O3: each word evaluated. -/
theorem tableWordsDecode : Obligations.TableWordsDecode := ⟨rfl, rfl, rfl, rfl, rfl⟩

/-- Settles O4: nothing stands between the decoder and exec. -/
theorem stepRunsDecodedInstruction : Obligations.StepRunsDecodedInstruction := by
  intro s bytes i rest hf hd
  exact step_of_decode_ok hf hd

/-- Settles O5, by induction on the bytes. -/
theorem fetchReadsBytesAtRip : Obligations.FetchReadsBytesAtRip := by
  intro s bytes hl h
  rw [State.fetch, ← hl]
  refine fetchBytes_eq_ok fun i hi => ?_
  obtain ⟨pa, ht, hw, hr⟩ := h i hi
  rw [fetchByte_of_readable ht hw, hr]

/-- Settles O6: the decoder compares EAX with the selector of the one leaf. -/
theorem leafSelectedByEax : Obligations.LeafSelectedByEax := by
  intro s hf
  rw [← List.append_nil s.cfg.enclsBytes] at hf
  refine ⟨fun h => ?_, fun h => ?_⟩
  · exact step_of_decode_ok hf ((decode_eq_ok_iff s.cfg _ _ .enclsEwb []).mpr ⟨rfl, h⟩)
  · exact step_of_decode_error hf (decode_of_other_leaf s.cfg [] fun i => by cases i; exact h)

/-- Settles O7: bytes of the same number that begin with those of `ENCLS` are those of `ENCLS`. -/
theorem onlyBareEnclsAdmitted : Obligations.OnlyBareEnclsAdmitted := by
  intro s bytes hf hne
  have hl : bytes.length = s.cfg.enclsBytes.length := length_of_fetchBytes hf
  refine step_of_decode_error hf (decode_of_not_encls _ fun rest hb => hne ?_)
  rw [hb, List.length_append] at hl
  rw [hb, List.eq_nil_of_length_eq_zero (by omega : rest.length = 0), List.append_nil]

/-- Settles O54: at reset memory and the EPC are empty. -/
theorem resetMeetsInvariant : Obligations.ResetMeetsInvariant where
  memory := ⟨List.Pairwise.nil, fun _ h => absurd h List.not_mem_nil⟩
  epcOrdered := List.Pairwise.nil
  epcAligned := fun _ h => absurd h List.not_mem_nil
  types := fun _ h => absurd h List.not_mem_nil
  links := fun _ h => absurd h List.not_mem_nil

/-- Settles O55: the premises, evaluated at the reset state. -/
theorem resetIsAdmitted : Obligations.ResetIsAdmitted := ⟨(premises_eq_ok_iff _ ()).mp rfl, rfl⟩

/-- Settles O56: the placed bytes and selector are fetched and decoded. -/
theorem placedLeafRuns : Obligations.PlacedLeafRuns := rfl

end Sys2Proof.Machine
end

section
/-! Proofs about memory, addresses and the environment step: little-endian reads after writes (rules R50, R57), an
aligned operand inside one page (rules R48, R63), and what an environment step writes (rule R153). -/

namespace Sys2Proof.Machine

/-! ### Little-endian bytes -/

/-- Byte `i` of the little-endian bytes of a value is its bits `8i+7` down to `8i` (rule R57). -/
theorem getElem_leBytes (n v i : Nat) (h : i < (leBytes n v).length) :
    (leBytes n v)[i] = BitVec.ofNat 8 (v >>> (8 * i)) := by
  induction n generalizing v i with
  | zero => exact absurd h (Nat.not_lt_zero i)
  | succ n ih =>
    cases i with
    | zero => rfl
    | succ i =>
      have tail : i < (leBytes n (v / 256)).length := Nat.lt_of_succ_lt_succ h
      have shift : v >>> (8 * (i + 1)) = (v / 256) >>> (8 * i) := by
        rw [Nat.mul_succ, Nat.add_comm, Nat.shiftRight_add, Nat.shiftRight_eq_div_pow v 8]
      rw [shift, ← ih _ _ tail]
      rfl

/-- A byte inside a write reads as what was written there. -/
theorem read_writeBytes_inside (m : Memory) (a : Nat) (bs : List Byte) {i : Nat} (h : i < bs.length) :
    (m.writeBytes a bs).read (a + i) = bs[i] := by
  rw [read_writeBytes, dif_pos ⟨Nat.le_add_right a i, Nat.add_lt_add_left h a⟩]
  simp

/-- Settles O48: the bytes written are the bytes read, and they spell the value modulo `2 ^ (8 * n)`. -/
theorem littleEndianMemory : Obligations.LittleEndianMemory := by
  intro m a n v
  have len := length_leBytes n v
  have bytes : (m.writeBytes a (leBytes n v)).readBytes a n = leBytes n v := by
    have h := readBytes_eq (m.writeBytes a (leBytes n v)) a _ fun _ hi => read_writeBytes_inside m a _ hi
    rwa [len] at h
  refine ⟨?_, fun i hi => ?_, fun x hx => read_writeBytes_outside m a _ x (by rwa [len])⟩
  · rw [Memory.readLe, bytes, ofLeBytes_leBytes, Nat.pow_mul]
  · rw [read_writeBytes_inside m a _ (by rwa [len]), getElem_leBytes, BitVec.toNat_ofNat]

/-! ### Operands inside a page -/

/-- Inside one page translation is one frame: it moves with the offset (rule R48). -/
theorem translate_add {s : State} {la : Word} {acc : Access} {pa i : Nat} (h : s.translate la acc = .ok pa)
    (hi : la.toNat % 4096 + i < 4096) : s.translate (la + BitVec.ofNat 64 i) acc = .ok (pa + i) := by
  have sum : (la + BitVec.ofNat 64 i).toNat = la.toNat + i := by
    have := la.isLt
    rw [BitVec.toNat_add, BitVec.toNat_ofNat]
    omega
  have frame : (la.toNat + i) / 4096 = la.toNat / 4096 := by omega
  unfold State.translate at h ⊢
  rw [sum, frame]
  split at h <;> rename_i ha
  · simp only [Except.ok.injEq] at h ⊢
    omega
  · cases h

/-- Settles O49: the four sizes divide 4096, so an aligned operand ends where its page does or before. -/
theorem operandStaysInItsPage : Obligations.OperandStaysInItsPage := by
  intro s la acc pa n ht hn ha
  have divides : n ∣ 4096 := by
    rcases hn with rfl | rfl | rfl | rfl <;> decide
  have offset := translate_offset ht
  have inside := operand_in_page divides ha
  refine ⟨?_, fun i hi => ⟨translate_add ht (by omega), pageOf_add (by omega)⟩⟩
  rw [← Nat.mod_mod_of_dvd pa divides, offset, Nat.mod_mod_of_dvd _ divides, ha]

/-! ### Environment steps -/

/-- What every environment write keeps, an environment step keeps. -/
theorem envStep_induction {P : State → State → Prop} (refl : ∀ s, P s s) (trans : ∀ {s t u}, P s t → P t u → P s u)
    (s : State) (ws : List EnvWrite) (h : ∀ w ∈ ws, ∀ t, P t (t.envWrite w)) : P s (s.envStep ws) := by
  induction ws generalizing s with
  | nil => exact refl s
  | cons w ws ih =>
    exact trans (h w List.mem_cons_self s) (ih (s.envWrite w) fun v hv => h v (List.mem_cons_of_mem w hv))

theorem EnvKept.refl (s : State) : EnvKept s s := by constructor <;> rfl

theorem EnvKept.trans {s t u : State} (h : EnvKept s t) (k : EnvKept t u) : EnvKept s u := by
  cases h
  cases k
  constructor <;> simp only [*]

theorem envStep_kept (s : State) (ws : List EnvWrite) : EnvKept s (s.envStep ws) :=
  envStep_induction EnvKept.refl EnvKept.trans s ws fun w _ t => envWrite_kept t w

/-- What an environment step leaves as it was, where every write of it does. -/
theorem envStep_keeps {α : Type} (f : State → α) (s : State) (ws : List EnvWrite)
    (h : ∀ w ∈ ws, ∀ t, f (t.envWrite w) = f t) : f (s.envStep ws) = f s :=
  envStep_induction (P := fun s t => f t = f s) (fun _ => rfl) (fun h k => k.trans h) s ws h

/-- An environment write that names no field of an entry leaves the page, but for fields of its entry, as it was. -/
theorem envWrite_epcPage?_map {α : Type} (f : EpcPage → α) (s : State) (w : EnvWrite) (q : Nat)
    (h : ∀ (x : EpcPage) (g : EpcmField), w = .epcmField q g → f { x with entry := x.entry.setField g } = f x) :
    ((s.envWrite w).epcPage? q).map f = (s.epcPage? q).map f := by
  rw [envWrite_epcPage?]
  cases w with
  | epcmField p g =>
    rw [Option.map_map]
    refine congrArg (Option.map · _) (funext fun x => ?_)
    by_cases hq : q = p
    · subst hq
      simpa using h x g rfl
    · simp [hq]
  | register r v => rfl
  | rip v => rfl
  | bytes a bs => rfl

theorem envWrite_secsEid (s : State) (w : EnvWrite) (q : Nat) : (s.envWrite w).secsEid q = s.secsEid q := by
  rw [State.secsEid, envWrite_epcPage?_map _ s w q fun _ _ _ => rfl, State.secsEid]

theorem envWrite_secsVirtChildCnt (s : State) (w : EnvWrite) (q : Nat) :
    (s.envWrite w).secsVirtChildCnt q = s.secsVirtChildCnt q := by
  rw [State.secsVirtChildCnt, envWrite_epcPage?_map _ s w q fun _ _ _ => rfl, State.secsVirtChildCnt]

theorem envWrite_inEpc (s : State) (w : EnvWrite) (pa : Nat) : (s.envWrite w).inEpc pa = s.inEpc pa := by
  have h := envWrite_epcPage?_map (fun _ => ()) s w (pageOf pa) fun _ _ _ => rfl
  rw [State.inEpc, State.inEpc, ← Option.isSome_map (f := fun _ => ()), h, Option.isSome_map]

/-- The entry of an address, by the page that holds it. -/
theorem epcm_eq_getD (s : State) (pa : Nat) :
    s.epcm pa = ((s.epcPage? (pageOf pa)).map (·.entry)).getD
      { valid := false, pt := .other 0, blocked := false, enclaveAddress := 0, rwx := 0, pending := false,
        modified := false, pr := false, enclaveSecs := none } := by
  unfold State.epcm
  cases s.epcPage? (pageOf pa) <;> rfl

/-- A field of an entry that an environment write does not name is as it was. -/
theorem envWrite_epcm_field (s : State) (w : EnvWrite) (pa : Nat) (k : EpcmFieldName)
    (h : ∀ g, w = .epcmField (pageOf pa) g → g.name ≠ k) : ((s.envWrite w).epcm pa).field k = (s.epcm pa).field k := by
  have field_map := envWrite_epcPage?_map (·.entry.field k) s w (pageOf pa) fun x g hg =>
    field_setField_of_ne x.entry g (h g hg)
  rw [epcm_eq_getD, epcm_eq_getD]
  revert field_map
  cases (s.envWrite w).epcPage? (pageOf pa) <;> cases s.epcPage? (pageOf pa) <;> simp

theorem envStep_inEpc (s : State) (ws : List EnvWrite) (pa : Nat) : (s.envStep ws).inEpc pa = s.inEpc pa :=
  envStep_keeps (·.inEpc pa) s ws fun w _ t => envWrite_inEpc t w pa

/-- A byte of the EPC reads as before an environment step. -/
theorem envStep_read_epc (s : State) (ws : List EnvWrite) (x : Nat) (h : s.inEpc x = true) :
    (s.envStep ws).mem.read x = s.mem.read x := by
  induction ws generalizing s with
  | nil => rfl
  | cons w ws ih =>
    rw [envStep_cons, ih (s.envWrite w) (by rwa [envWrite_inEpc]), envWrite_read_epc s w x h]

/-- The named field of an EPC page's entry holds what an environment write puts there. -/
theorem envWrite_epcm_written (s : State) (pa : Nat) (f : EpcmField) (h : s.inEpc pa = true) :
    ((s.envWrite (.epcmField (pageOf pa) f)).epcm pa).field f.name = f := by
  obtain ⟨x, hx⟩ := Option.isSome_iff_exists.mp h
  rw [epcm_eq_getD, envWrite_epcPage?]
  simp [hx]

/-- A run of regular memory holds what an environment write puts there. -/
theorem envWrite_read_written (s : State) (a : Nat) (bs : List Byte) (h : ∀ i, i < bs.length → s.inEpc (a + i) = false)
    {i : Nat} (hi : i < bs.length) : (s.envWrite (.bytes a bs)).mem.read (a + i) = bs[i] := by
  rw [State.envWrite, if_pos ((regularRun_iff s a _).mpr h)]
  exact read_writeBytes_inside s.mem a bs hi

theorem reg_setReg (s : State) (r : Reg) (v : Word) : (s.setReg r v).reg r = v := by cases r <;> rfl

/-- Settles O60: each clause holds of one environment write, and a step is a list of them. -/
theorem envStepWritesOnlyWhatItNames : Obligations.EnvStepWritesOnlyWhatItNames := by
  refine ⟨fun s ws => ⟨envStep_kept s ws, fun r h => ?_, fun h => ?_, fun x h => ?_, envStep_read_epc s ws,
    fun pa k h => ?_, envStep_inEpc s ws, fun page => ?_, fun page => ?_⟩, fun s ws => ⟨fun r v => ?_, fun v => ?_,
    fun a bs h i hi => ?_, fun pa f h => ?_⟩⟩
  · exact envStep_keeps (·.reg r) s ws fun w hw t => envWrite_reg t w r fun v hv => h v (hv ▸ hw)
  · exact envStep_keeps (·.rip) s ws fun w hw t => envWrite_rip t w fun v hv => h v (hv ▸ hw)
  · exact envStep_keeps (·.mem.read x) s ws fun w hw t => envWrite_read t w x fun a bs hb => h a bs (hb ▸ hw)
  · exact envStep_keeps (fun t => (t.epcm pa).field k) s ws fun w hw t =>
      envWrite_epcm_field t w pa k fun g hg => h g (hg ▸ hw)
  · exact envStep_keeps (·.secsEid page) s ws fun w _ t => envWrite_secsEid t w page
  · exact envStep_keeps (·.secsVirtChildCnt page) s ws fun w _ t => envWrite_secsVirtChildCnt t w page
  · rw [envStep_append]
    exact reg_setReg _ r v
  · rw [envStep_append]
    rfl
  · rw [envStep_append]
    exact envWrite_read_written _ a bs (fun j hj => by rw [envStep_inEpc, h j hj]) hi
  · rw [envStep_append]
    exact envWrite_epcm_written _ pa f (by rwa [envStep_inEpc])

end Sys2Proof.Machine
end

section
/-! Proofs about completion: where the checks pass, EWB ends in an error-code exit or evicts the page, and what it then
leaves in registers, flags, memory and the EPCM (rules R99 to R114, R117). -/

namespace Sys2Proof.Machine

/-! ### The value of the slot and the error codes -/

theorem ofLeBytes_lt (bs : List Byte) : ofLeBytes bs < 256 ^ bs.length := by
  induction bs with
  | nil => exact Nat.one_pos
  | cons b bs ih =>
    have := b.isLt
    rw [ofLeBytes, List.length_cons, Nat.pow_succ]
    omega

theorem readLe_lt (m : Memory) (a n : Nat) : m.readLe a n < 256 ^ n := by
  have bound := ofLeBytes_lt (m.readBytes a n)
  rwa [length_readBytes] at bound

theorem loadWord_eq_zero_iff (s : State) (pa : Nat) : s.loadWord pa = 0 ↔ s.mem.readLe pa 8 = 0 := by
  have bound : s.mem.readLe pa 8 < 2 ^ 64 := readLe_lt s.mem pa 8
  rw [State.loadWord, ← BitVec.toNat_inj, BitVec.toNat_ofNat, Nat.mod_eq_of_lt bound]
  rfl

theorem slotOccupied_iff (s : State) (c : EwbContext) : slotOccupied s c = true ↔ s.mem.readLe c.regs.paVa 8 ≠ 0 := by
  rw [slotOccupied, bne_iff_ne, Ne, loadWord_eq_zero_iff]

theorem slotOccupied_eq_false_iff (s : State) (c : EwbContext) :
    slotOccupied s c = false ↔ s.mem.readLe c.regs.paVa 8 = 0 := by
  rw [← Bool.not_eq_true, slotOccupied_iff, not_not]

/-- The code of an error-code exit is one of three (rules R100 to R104). -/
theorem errorCode_cases {s : State} {c : EwbContext} {code : Word} (h : ewbEvictable s c = .error code) :
    code = s.cfg.codes.pageNotBlocked ∨ code = s.cfg.codes.notTracked ∨ code = s.cfg.codes.childPresent := by
  unfold ewbEvictable at h
  split at h
  · split at h
    · exact .inl (Except.error.inj h).symm
    · split at h
      · exact .inr (.inl (Except.error.inj h).symm)
      · cases h
  · split at h
    · exact .inr (.inr (Except.error.inj h).symm)
    · split at h
      · exact .inr (.inr (Except.error.inj h).symm)
      · cases h
  · cases h

theorem codes_ok {cfg : Config} (h : cfg.ok = true) : cfg.codes.ok = true := by
  simp only [Config.ok, Bool.and_eq_true] at h
  tauto

/-- The codes an eviction reports are none of those of the error-code exits (rule R85). -/
theorem errorCode_ne {s : State} {c : EwbContext} {code : Word} (hok : s.cfg.ok = true)
    (h : ewbEvictable s c = .error code) : code ≠ 0 ∧ code ≠ s.cfg.codes.vaSlotOccupied := by
  have distinct := codes_ok hok
  simp only [ErrorCodes.ok, List.all_cons, List.all_nil, Bool.and_eq_true, bne_iff_ne, decide_eq_true_eq,
    List.nodup_cons, List.mem_cons, List.not_mem_nil, or_false, not_or] at distinct
  obtain ⟨⟨nb, nt, -, cp, -⟩, ⟨-, nbVa, -⟩, ⟨ntVa, -⟩, vaCp, -⟩ := distinct
  rcases errorCode_cases h with rfl | rfl | rfl
  · exact ⟨nb, nbVa⟩
  · exact ⟨nt, ntVa⟩
  · exact ⟨cp, fun e => vaCp e.symm⟩

/-- The code for an occupied slot is not 0 (rule R85). -/
theorem vaSlotOccupied_ne_zero {cfg : Config} (hok : cfg.ok = true) : cfg.codes.vaSlotOccupied ≠ 0 := by
  have distinct := codes_ok hok
  simp only [ErrorCodes.ok, List.all_cons, List.all_nil, Bool.and_eq_true, bne_iff_ne] at distinct
  tauto

/-! ### The two ways to complete -/

/-- A page that may not be evicted ends in the exit with its code. -/
theorem exec_of_errorCode {s : State} {c : EwbContext} {code : Word} (hr : EwbReady s c)
    (h : ewbEvictable s c = .error code) : exec .enclsEwb s = .next (ewbErrorExit s code) := by
  rw [exec_enclsEwb, execEnclsEwb_of_ready hr, ewbCommit, h]

theorem not_evictable_of_errorCode {s : State} {c : EwbContext} {code : Word} (h : ewbEvictable s c = .error code)
    (ids : EnclaveIds) : ¬Evictable s c ids := fun he => by
  rw [(ewbEvictable_eq_ok_iff s c ids).mpr he] at h
  cases h

/-- Where the checks pass, EWB ends in an error-code exit or evicts, by whether the page may be evicted. -/
theorem exec_of_ready_cases {s : State} {c : EwbContext} (hr : EwbReady s c) :
    (∃ code, ewbEvictable s c = .error code ∧ (∀ ids, ¬Evictable s c ids) ∧
      exec .enclsEwb s = .next (ewbErrorExit s code)) ∨
    ∃ ids, Evictable s c ids ∧ exec .enclsEwb s = .next (ewbEvict s c ids) := by
  cases h : ewbEvictable s c with
  | error code => exact .inl ⟨code, rfl, not_evictable_of_errorCode h, exec_of_errorCode hr h⟩
  | ok ids =>
    have he := (ewbEvictable_eq_ok_iff s c ids).mp h
    exact .inr ⟨ids, he, exec_of_evictable hr he⟩

/-! ### An error-code exit, field by field -/

section ErrorExitFields

variable (s : State) (code : Word)

theorem ewbErrorExit_rax : (ewbErrorExit s code).regs.rax = code := by rw [ewbErrorExit_eq, set_rax_rax]

theorem ewbErrorExit_rip : (ewbErrorExit s code).rip = s.rip + BitVec.ofNat 64 s.cfg.ilen := by rw [ewbErrorExit_eq]

theorem ewbErrorExit_mem : (ewbErrorExit s code).mem = s.mem := by rw [ewbErrorExit_eq]

theorem ewbErrorExit_epc : (ewbErrorExit s code).epc = s.epc := by rw [ewbErrorExit_eq]

theorem ewbErrorExit_vmcs : (ewbErrorExit s code).vmcs = s.vmcs := by rw [ewbErrorExit_eq]

theorem ewbErrorExit_vmExited : (ewbErrorExit s code).vmExited = s.vmExited := by rw [ewbErrorExit_eq]

theorem ewbErrorExit_drawCount : (ewbErrorExit s code).drawCount = s.drawCount + 1 := by rw [ewbErrorExit_eq]

theorem ewbErrorExit_env : (ewbErrorExit s code).env = Config.freeEnvironment (s.drawCount + 1) := by
  rw [ewbErrorExit_eq]

theorem ewbErrorExit_ewbWritten : (ewbErrorExit s code).ewbWritten = s.ewbWritten := by rw [ewbErrorExit_eq]

theorem ewbErrorExit_flag (f : StatusFlag) : (ewbErrorExit s code).flag f = decide (f = .zf) := by
  rw [ewbErrorExit_eq, State.flag, flagIn_withFlag, flagIn_clearedFlags]
  by_cases h : f = .zf <;> simp [h]

theorem ewbErrorExit_otherBits : OtherFlagBitsKept s (ewbErrorExit s code) := fun i h => by
  rw [ewbErrorExit_eq, getLsbD_withFlag, if_neg (h .zf), getLsbD_clearedFlags _ _ h]

end ErrorExitFields

/-- What an error-code exit leaves (rules R100 to R104, R114, R117). -/
theorem errorExit_ewbErrorExit {s : State} (code : Word) (hx : s.vmExited = false) :
    ErrorExit s (ewbErrorExit s code) code where
  rax := ewbErrorExit_rax s code
  zf := ewbErrorExit_flag s code .zf
  others f hf := by rw [ewbErrorExit_flag, decide_eq_false hf]
  otherBits := ewbErrorExit_otherBits s code
  rip := ewbErrorExit_rip s code
  mem := ewbErrorExit_mem s code
  epc := ewbErrorExit_epc s code
  vmcs := ewbErrorExit_vmcs s code
  noExit := (ewbErrorExit_vmExited s code).trans hx
  unchanged := unchanged_errorExit s code

/-- A page that may not be evicted ends in an exit that leaves what an error-code exit leaves. -/
theorem errorExit_of_errorCode {s : State} {c : EwbContext} {code : Word} (hr : EwbReady s c)
    (h : ewbEvictable s c = .error code) : ∃ t, exec .enclsEwb s = .next t ∧ ErrorExit s t code :=
  ⟨_, exec_of_errorCode hr h, errorExit_ewbErrorExit code hr.admitted.noExit⟩

/-! ### An eviction, field by field -/

section EvictFields

variable (s : State) (c : EwbContext) (ids : EnclaveIds)

theorem ewbEvict_rax :
    (ewbEvict s c ids).regs.rax = if slotOccupied s c then s.cfg.codes.vaSlotOccupied else 0 := by
  rw [ewbEvict_eq, set_rax_rax]

theorem ewbEvict_rip : (ewbEvict s c ids).rip = s.rip + BitVec.ofNat 64 s.cfg.ilen := by rw [ewbEvict_eq]

theorem ewbEvict_vmcs : (ewbEvict s c ids).vmcs = s.vmcs := by rw [ewbEvict_eq]

theorem ewbEvict_vmExited : (ewbEvict s c ids).vmExited = s.vmExited := by rw [ewbEvict_eq]

theorem ewbEvict_drawCount : (ewbEvict s c ids).drawCount = s.drawCount + 1 := by rw [ewbEvict_eq]

theorem ewbEvict_env : (ewbEvict s c ids).env = Config.freeEnvironment (s.drawCount + 1) := by rw [ewbEvict_eq]

theorem ewbEvict_ewbWritten :
    (ewbEvict s c ids).ewbWritten =
      s.ewbWritten ++ (evictWrites s c ids).map fun w => (w.address, w.bytes.length) := by
  rw [ewbEvict_eq]

theorem ewbEvict_rflags :
    (ewbEvict s c ids).rflags =
      if slotOccupied s c then withFlag (clearedFlags s.rflags) .cf true else clearedFlags s.rflags := by
  rw [ewbEvict_eq]

theorem ewbEvict_flag (f : StatusFlag) : (ewbEvict s c ids).flag f = (decide (f = .cf) && slotOccupied s c) := by
  rw [State.flag, ewbEvict_rflags]
  split <;> rename_i h
  · rw [flagIn_withFlag, flagIn_clearedFlags, h]
    by_cases hf : f = .cf <;> simp [hf]
  · rw [flagIn_clearedFlags, Bool.eq_false_of_not_eq_true h, Bool.and_false]

theorem ewbEvict_carry : (ewbEvict s c ids).flag .cf = slotOccupied s c := by
  rw [ewbEvict_flag, decide_eq_true rfl, Bool.true_and]

theorem ewbEvict_otherBits : OtherFlagBitsKept s (ewbEvict s c ids) := fun i h => by
  rw [ewbEvict_rflags]
  split
  · rw [getLsbD_withFlag, if_neg (h .cf), getLsbD_clearedFlags _ _ h]
  · rw [getLsbD_clearedFlags _ _ h]

/-- States with the same EPC have the same EPC pages. -/
theorem epcPage?_congr {s t : State} (h : t.epc = s.epc) (page : Nat) : t.epcPage? page = s.epcPage? page := by
  rw [State.epcPage?, h, State.epcPage?]

/-- States with the same EPC have the same entries. -/
theorem epcm_congr {s t : State} (h : t.epc = s.epc) (pa : Nat) : t.epcm pa = s.epcm pa := by
  rw [epcm_eq_getD, epcPage?_congr h, epcm_eq_getD]

theorem ewbEvict_epcPage? (page : Nat) :
    (ewbEvict s c ids).epcPage? page =
      (s.epcPage? page).map fun x => if page = pageOf c.regs.paSrc then x.invalidated else x := by
  rw [epcPage?_congr (ewbEvict_epc s c ids), epcPage?_invalidate]

theorem ewbEvict_epcm_source :
    (ewbEvict s c ids).epcm c.regs.paSrc = { s.epcm c.regs.paSrc with valid := false } := by
  rw [epcm_congr (ewbEvict_epc s c ids), epcm_invalidate, if_pos rfl]

theorem ewbEvict_source_invalid : ((ewbEvict s c ids).epcm c.regs.paSrc).valid = false := by
  rw [ewbEvict_epcm_source]

end EvictFields

/-- Outside what EWB writes a byte reads as before an eviction. -/
theorem read_evict_outside {s : State} {c : EwbContext} (ids : EnclaveIds) (hr : EwbReady s c) {x : Nat}
    (hout : ¬Within c.info.paOut 4096 x) (hpcmd : ¬Within c.info.paPcmd 128 x)
    (hlin : ¬Within (c.info.paPi + s.cfg.pageInfo.linaddr) 8 x) (hva : ¬Within c.regs.paVa 8 x)
    (hsrc : ¬Within c.regs.paSrc 4096 x) : (ewbEvict s c ids).mem.read x = s.mem.read x := by
  rw [ewbEvict_mem]
  refine read_applyWrites_outside _ _ _ fun w hw hc => ?_
  rcases evictWrites_cover hr.admitted.parameters hw hc with h | h | h | h | h
  · exact hout h
  · exact hpcmd h
  · exact hlin h
  · exact hva h
  · exact hsrc h

/-- The output page holds the ciphertext under the key, the version, the page's header with the first id, and the
page's bytes; `PCMD.ENCLAVEID` holds the second id (rules R107, R109, R110). -/
theorem evict_output {s : State} {c : EwbContext} {ids : EnclaveIds} (hr : EwbReady s c) (he : Evictable s c ids) :
    ∃ t, exec .enclsEwb s = .next t ∧
      (∀ (i : Nat) (hi : i < 4096), t.mem.read (c.info.paOut + i) =
        (Config.aesGcmEnc s.cfg.pcmd.macSize s.crBasePk (s.version.toNat * 2 ^ 32)
          (ewbHeader (s.epcm c.regs.paSrc) ids.header) 128 (s.mem.readPage c.regs.paSrc) 4096).1[i]) ∧
      t.mem.readLe (c.info.paPcmd + s.cfg.pcmd.enclaveId) 8 = ids.pcmd.toNat ∧
      (t.epcm c.regs.paSrc).valid = false := by
  refine ⟨_, exec_of_evictable hr he, fun i hi => ?_, ?_, ewbEvict_source_invalid s c ids⟩
  · rw [ewbEvict_mem]
    exact read_out hr hi
  · rw [ewbEvict_mem]
    exact read_enclaveId hr

/-! ### Which pages may be evicted -/

section Kinds

variable {s : State} {c : EwbContext}

theorem errorCode_of_not_blocked {p : Nat} (hk : c.kind = .child p) (hb : (s.epcm c.regs.paSrc).blocked = false) :
    ewbEvictable s c = .error s.cfg.codes.pageNotBlocked := by
  simp [ewbEvictable, hk, hb]

theorem errorCode_of_not_tracked {p : Nat} (hk : c.kind = .child p) (hb : (s.epcm c.regs.paSrc).blocked = true)
    (ht : s.env.trackingCorrect = false) : ewbEvictable s c = .error s.cfg.codes.notTracked := by
  simp [ewbEvictable, hk, hb, ht]

theorem errorCode_of_child (hk : c.kind = .secs) (hc : s.hasChild (pageOf c.regs.paSrc) = true) :
    ewbEvictable s c = .error s.cfg.codes.childPresent := by
  simp [ewbEvictable, hk, hc]

theorem errorCode_of_virtual_child (hk : c.kind = .secs) (hc : s.hasChild (pageOf c.regs.paSrc) = false)
    (hv : s.vmxCond = true) (he : s.epcVirtExtensions = true) (hn : s.secsVirtChildCnt (pageOf c.regs.paSrc) ≠ 0) :
    ewbEvictable s c = .error s.cfg.codes.childPresent := by
  simp [ewbEvictable, hk, hc, hv, he, hn]

theorem evictable_child {p : Nat} (hk : c.kind = .child p) (hb : (s.epcm c.regs.paSrc).blocked = true)
    (ht : s.env.trackingCorrect = true) : Evictable s c { header := s.secsEid p, pcmd := s.secsEid p } := by
  rw [Evictable, hk]
  exact ⟨hb, ht, rfl⟩

theorem evictable_secs (hk : c.kind = .secs) (hc : s.hasChild (pageOf c.regs.paSrc) = false)
    (hv : s.vmxCond = true → s.epcVirtExtensions = true → s.secsVirtChildCnt (pageOf c.regs.paSrc) = 0) :
    Evictable s c { header := 0, pcmd := s.secsEid (pageOf c.regs.paSrc) } := by
  rw [Evictable, hk]
  exact ⟨hc, hv, rfl⟩

theorem evictable_va (hk : c.kind = .va) : Evictable s c { header := 0, pcmd := 0 } := by
  rw [Evictable, hk]

end Kinds

/-! ### The obligations: the outcomes -/

/-- Settles O9: both ways to complete advance RIP, clear these four flags and use up the draws. -/
theorem ewbCompletesWhenReady : Obligations.EwbCompletesWhenReady := by
  intro s c hr
  have noExit := hr.admitted.noExit
  rcases exec_of_ready_cases hr with ⟨code, -, -, h⟩ | ⟨ids, -, h⟩
  · have flag := ewbErrorExit_flag s code
    exact ⟨_, h, ewbErrorExit_rip s code, flag .pf, flag .af, flag .of, flag .sf,
      (ewbErrorExit_vmExited s code).trans noExit, ewbErrorExit_drawCount s code, ewbErrorExit_env s code⟩
  · have flag := ewbEvict_flag s c ids
    exact ⟨_, h, ewbEvict_rip s c ids, flag .pf, flag .af, flag .of, flag .sf,
      (ewbEvict_vmExited s c ids).trans noExit, ewbEvict_drawCount s c ids, ewbEvict_env s c ids⟩

/-- Settles O10: BLOCKED is tested for a child page only. -/
theorem notBlockedExit : Obligations.NotBlockedExit :=
  ⟨fun _ _ _ hr hk hb => errorExit_of_errorCode hr (errorCode_of_not_blocked hk hb),
    fun s c ids hr he _ => ⟨_, exec_of_evictable hr he, ewbEvict_source_invalid s c ids⟩⟩

/-- Settles O11: BLOCKED is tested before tracking. -/
theorem notTrackedExit : Obligations.NotTrackedExit := by
  intro s c p hr hk ht
  cases hb : (s.epcm c.regs.paSrc).blocked with
  | false => exact errorExit_of_errorCode hr (errorCode_of_not_blocked hk hb)
  | true => exact errorExit_of_errorCode hr (errorCode_of_not_tracked hk hb ht)

/-- Settles O12: the child is looked for first. -/
theorem childPresentExit : Obligations.ChildPresentExit := by
  intro s c hr hk hc
  exact errorExit_of_errorCode hr (errorCode_of_child hk hc)

/-- Settles O13: with either condition false the page is evicted, whatever VIRTCHILDCNT is. -/
theorem virtualChildExit : Obligations.VirtualChildExit := by
  intro s c hr hk hc
  refine ⟨fun hv he hn => errorExit_of_errorCode hr (errorCode_of_virtual_child hk hc hv he hn), fun h => ?_⟩
  have may : Evictable s c _ := evictable_secs hk hc fun hv he => by simp [hv, he] at h
  exact ⟨_, exec_of_evictable hr may, ewbEvict_source_invalid s c _, ewbEvict_flag s c _ .zf⟩

/-- Settles O14: RAX and CF by the slot's value before, and the version in it after. -/
theorem slotReportedAndWritten : Obligations.SlotReportedAndWritten := by
  intro s c ids hr he
  have rax := ewbEvict_rax s c ids
  have carry := ewbEvict_carry s c ids
  refine ⟨_, exec_of_evictable hr he, fun h => ?_, fun h => ?_, ewbEvict_flag s c ids .zf, ?_,
    ewbEvict_source_invalid s c ids⟩
  · rw [(slotOccupied_iff s c).mpr h] at rax carry
    exact ⟨rax, carry⟩
  · rw [(slotOccupied_eq_false_iff s c).mpr h] at rax carry
    exact ⟨rax, carry⟩
  · rw [ewbEvict_mem]
    exact read_slot hr

/-- Settles O22: the content is the last write of an eviction; an error-code exit writes no memory. -/
theorem evictedContentIsFree : Obligations.EvictedContentIsFree := by
  intro s c hr
  rcases exec_of_ready_cases hr with ⟨code, -, no, h⟩ | ⟨ids, he, h⟩
  · exact ⟨_, h, fun ⟨ids, he⟩ => absurd he (no ids), fun _ => ewbErrorExit_mem s code⟩
  · refine ⟨_, h, fun _ i hi => ?_, fun no => absurd he (no ids)⟩
    rw [ewbEvict_mem]
    exact read_content hi

/-- Settles O23: ZF is that of an error-code exit, CF that of an eviction into an occupied slot. -/
theorem zeroAndCarryByOutcome : Obligations.ZeroAndCarryByOutcome := by
  intro s c hr
  rcases exec_of_ready_cases hr with ⟨code, -, no, h⟩ | ⟨ids, he, h⟩
  · have zf : (ewbErrorExit s code).flag .zf = true := ewbErrorExit_flag s code .zf
    have cf : (ewbErrorExit s code).flag .cf = false := ewbErrorExit_flag s code .cf
    refine ⟨_, h, iff_of_true zf no, iff_of_false (by simp [cf]) fun ⟨⟨ids, he⟩, _⟩ => no ids he, fun ⟨_, h⟩ => ?_⟩
    simp [cf] at h
  · have zf : (ewbEvict s c ids).flag .zf = false := ewbEvict_flag s c ids .zf
    refine ⟨_, h, iff_of_false (by simp [zf]) fun no => no ids he, ?_, fun ⟨h, _⟩ => by simp [zf] at h⟩
    rw [ewbEvict_carry, slotOccupied_iff]
    exact ⟨fun hs => ⟨⟨ids, he⟩, hs⟩, fun hs => hs.2⟩

/-- Settles O24: no error-code exit reports 0 or `SGX_VA_SLOT_OCCUPIED`, and an eviction reports one of them. -/
theorem returnCodeTellsOutcome : Obligations.ReturnCodeTellsOutcome := by
  intro s c hr
  have ok := hr.admitted.parameters
  rcases exec_of_ready_cases hr with ⟨code, hcode, no, h⟩ | ⟨ids, he, h⟩
  · obtain ⟨ne0, neVa⟩ := errorCode_ne ok hcode
    exact ⟨_, h, iff_of_false ne0 fun ⟨⟨ids, he⟩, _⟩ => no ids he, iff_of_false neVa fun ⟨⟨ids, he⟩, _⟩ => no ids he⟩
  · have va := vaSlotOccupied_ne_zero ok
    refine ⟨_, h, ?_⟩
    rw [ewbEvict_rax]
    cases hs : slotOccupied s c with
    | true =>
      have occupied := (slotOccupied_iff s c).mp hs
      exact ⟨iff_of_false va fun ⟨_, hz⟩ => occupied hz, iff_of_true rfl ⟨⟨ids, he⟩, occupied⟩⟩
    | false =>
      have empty := (slotOccupied_eq_false_iff s c).mp hs
      exact ⟨iff_of_true rfl ⟨⟨ids, he⟩, empty⟩, iff_of_false (fun e => va e.symm) fun ⟨_, hn⟩ => hn empty⟩

/-! ### The obligations: what an eviction leaves in memory and the EPCM -/

/-- Settles O15: the output page and the MAC read as the two results. -/
theorem ciphertextAndMacWritten : Obligations.CiphertextAndMacWritten := by
  intro s c ids hr he
  refine ⟨_, exec_of_evictable hr he, fun i hi => ?_, fun i hi => ?_⟩
  · rw [ewbEvict_mem]
    exact read_out hr hi
  · rw [ewbEvict_mem]
    exact read_mac hr hi

/-- Settles O16: both ids of a child page are the EID of its SECS. -/
theorem childPageBoundToItsEnclave : Obligations.ChildPageBoundToItsEnclave := by
  intro s c p hr hk hb ht
  obtain ⟨t, h, out, id, -⟩ := evict_output hr (evictable_child hk hb ht)
  exact ⟨t, h, out, id⟩

/-- Settles O17: the ids of a SECS page are 0 and its own EID. -/
theorem secsPageHandle : Obligations.SecsPageHandle := by
  intro s c hr hk hc hv
  obtain ⟨t, h, out, id, -⟩ := evict_output hr (evictable_secs hk hc hv)
  exact ⟨t, h, out, id⟩

/-- Settles O18: the ids of a VA page are 0, and nothing of it is tested. -/
theorem vaPageHasNoHandle : Obligations.VaPageHasNoHandle := by
  intro s c hr hk
  exact evict_output hr (evictable_va hk)

/-- `FlagsWord` under the default layout (rule R110). -/
theorem flagsWord_default {cfg : Config} (e : EpcmEntry) (h : cfg.flags = defaultFlags) :
    flagsWord cfg e = e.rwx.toNat + 8 * e.pending.toNat + 16 * e.modified.toNat + 32 * e.pr.toNat +
      256 * (ptValue cfg e.pt).toNat := by
  rw [flagsWord, h]
  simp only [defaultFlags]
  omega

/-- Under the default layout the four fields fill the PCMD, so every byte of it is written (rule R53). -/
theorem default_pcmd_covered {s : State} (c : EwbContext) (ids : EnclaveIds) (h : s.cfg.pcmd = defaultPcmd) {i : Nat}
    (hi : i < 128) : ∃ w ∈ evictWrites s c ids, w.covers (c.info.paPcmd + i) := by
  have fields : i < 64 ∨ (64 ≤ i ∧ i < 72) ∨ (72 ≤ i ∧ i < 112) ∨ 112 ≤ i := by omega
  rcases fields with f | f | f | f
  · refine ⟨secinfoWrite s c, by simp [evictWrites, outputWrites], (covers_secinfo s c _).mpr ?_⟩
    simp only [h, defaultPcmd, Within]
    omega
  · refine ⟨enclaveIdWrite s c ids, by simp [evictWrites, outputWrites], (covers_enclaveId s c ids _).mpr ?_⟩
    simp only [h, defaultPcmd, Within]
    omega
  · refine ⟨reservedWrite s c, by simp [evictWrites, outputWrites], (covers_reserved s c _).mpr ?_⟩
    simp only [h, defaultPcmd, Within]
    omega
  · refine ⟨macWrite s c ids, by simp [evictWrites, outputWrites], (covers_mac s c ids _).mpr ?_⟩
    simp only [h, defaultPcmd, Within]
    omega

/-- Settles O19: each field of the PCMD reads as what was written there. -/
theorem pcmdContents : Obligations.PcmdContents := by
  refine ⟨fun s c ids hr he => ?_, fun cfg e h => flagsWord_default e h, fun s c ids h i hi =>
    default_pcmd_covered c ids h hi⟩
  refine ⟨_, exec_of_evictable hr he, ?_, fun i hi hf => ?_, fun i hi => ?_, ?_⟩ <;> rw [ewbEvict_mem]
  · exact read_flags hr
  · exact read_secinfo hr hi hf
  · exact read_reserved hr hi
  · exact read_enclaveId hr

/-- Settles O21: an eviction changes the EPC as one invalidation does. -/
theorem onlyValidOfSourceCleared : Obligations.OnlyValidOfSourceCleared := by
  intro s c ids hr he
  refine ⟨_, exec_of_evictable hr he, ewbEvict_epcm_source s c ids, fun page hp => ?_⟩
  rw [ewbEvict_epcPage?]
  simp [hp]

/-- Settles O26: an error-code exit writes no memory, and an eviction writes inside the five operands. -/
theorem evictionMemoryFrame : Obligations.EvictionMemoryFrame := by
  intro s t c hr ht
  rcases exec_of_ready_cases hr with ⟨code, -, -, h⟩ | ⟨ids, -, h⟩
  · rw [h, Host.Outcome.next.injEq] at ht
    rw [← ht]
    exact ⟨ewbErrorExit_vmcs s code, fun _ _ _ _ _ _ => by rw [ewbErrorExit_mem]⟩
  · rw [h, Host.Outcome.next.injEq] at ht
    rw [← ht]
    exact ⟨ewbEvict_vmcs s c ids, fun x hout hpcmd hlin hva hsrc => read_evict_outside ids hr hout hpcmd hlin hva hsrc⟩

end Sys2Proof.Machine
end

section
/-! Proofs about what stops EWB before its commit point: each fault, refusal and the VM exit at its place in the order
of rule R136, and all that any stop can be (rules R87 to R98, R123 to R126, R131 to R144). -/

namespace Sys2Proof.Machine

/-! ### What a sequence of tests can stop with -/

/-- Whatever stops `x` is in `P`. -/
def StopsIn (P : Stop → Prop) {α : Type} (x : Except Stop α) : Prop := ∀ e, x = .error e → P e

section StopsIn

variable {P : Stop → Prop} {α β : Type}

theorem StopsIn.bind {x : Except Stop α} {f : α → Except Stop β} (hx : StopsIn P x)
    (hf : ∀ a, x = .ok a → StopsIn P (f a)) : StopsIn P (x >>= f) := fun e he => by
  rcases (bind_eq_error_iff x f e).mp he with h | ⟨a, ha, h⟩
  · exact hx e h
  · exact hf a ha e h

theorem StopsIn.require {b : Bool} {e : Stop} (h : b = false → P e) : StopsIn P (require b e) := fun e' he => by
  obtain ⟨hb, rfl⟩ := (require_eq_error_iff b e e').mp he
  exact h hb

theorem StopsIn.ok (a : α) : StopsIn P (.ok a) := fun _ h => by cases h

theorem StopsIn.error {e : Stop} (h : P e) : StopsIn P (.error e : Except Stop α) := fun e' he => by
  cases he
  exact h

theorem StopsIn.resolve {s : State} {o : Operand} (h : ∀ ec, P (.exception (.pageFault o.la ec))) :
    StopsIn P (s.resolve o) := fun e he => by
  unfold State.resolve at he
  split at he
  · cases he
  · cases he
    exact h _

theorem StopsIn.resolveInEpc {s : State} {o : Operand} (h : ∀ ec, P (.exception (.pageFault o.la ec))) :
    StopsIn P (s.resolveInEpc o) :=
  (StopsIn.resolve h).bind fun _ _ => (StopsIn.require fun _ => h _).bind fun _ _ => .ok _

end StopsIn

/-- The linear address of one of the five operands: of a register operand, or of one PAGEINFO points to. -/
def OperandAddress (s : State) (la : Word) : Prop :=
  la = (s.operand s.regs.rbx).la ∨ la = (s.operand s.regs.rcx).la ∨ la = (s.operand s.regs.rdx).la ∨
    ∃ paPi, s.translate (s.operand s.regs.rbx).la .write = .ok paPi ∧
      (la = (pcmdOperand s paPi).la ∨ la = (outOperand s paPi).la)

/-- All that can stop EWB before its commit point. -/
inductive PossibleStop (s : State) : Stop → Prop
  | generalProtection : PossibleStop s (.exception .generalProtection)
  | pageFault {la : Word} (h : OperandAddress s la) (ec : Nat) : PossibleStop s (.exception (.pageFault la ec))
  | notPrivileged (h : s.cpl ≠ 0) : PossibleStop s (.exception .notPrivileged)
  | vmExit (la : Word) (pa : Nat) (conflict : s.srcConflict = true) (vmx : s.vmxCond = true)
      (ext : s.epcVirtExtensions = true) : PossibleStop s (.vmExit la pa)
  | refusal (r : Refusal) : PossibleStop s (.refusal r)

theorem StopsIn.gpUnless (s : State) (b : Bool) : StopsIn (PossibleStop s) (gpUnless b) :=
  .require fun _ => .generalProtection

/-- The premises stop EWB with a refusal only (rules R16, R149). -/
theorem premises_stops (s : State) : StopsIn (fun e => ∃ r, e = .refusal r) s.premises := by
  unfold State.premises
  iterate 9 refine (StopsIn.require fun _ => ⟨_, rfl⟩).bind fun _ _ => ?_
  exact .require fun _ => ⟨_, rfl⟩

theorem privileged_stops (s : State) : StopsIn (PossibleStop s) s.privileged :=
  .require fun h => .notPrivileged (beq_eq_false_iff_ne.mp h)

/-- S1 to S5 stop with `#GP(0)` or a `#PF` at the source page or the slot (rules R87 to R91). -/
theorem ewbRegOperands_stops (s : State) : StopsIn (PossibleStop s) (ewbRegOperands s) := by
  unfold ewbRegOperands
  refine (StopsIn.gpUnless s _).bind fun _ _ => (StopsIn.gpUnless s _).bind fun _ _ => ?_
  refine (StopsIn.resolveInEpc (.pageFault (.inr (.inl rfl)))).bind fun _ _ => ?_
  refine (StopsIn.gpUnless s _).bind fun _ _ => (StopsIn.gpUnless s _).bind fun _ _ => ?_
  refine (StopsIn.resolveInEpc (.pageFault (.inr (.inr (.inl rfl))))).bind fun _ _ => ?_
  exact (StopsIn.gpUnless s _).bind fun _ _ => .ok _

/-- S6 to S8 stop with `#GP(0)`, a `#PF` at PAGEINFO, the PCMD or the output page, or a refusal (rules R92 to R94). -/
theorem ewbInfoOperands_stops {s : State} {r : RegOperands} (hpi : r.pi = s.operand s.regs.rbx) :
    StopsIn (PossibleStop s) (ewbInfoOperands s r) := by
  unfold ewbInfoOperands
  refine (StopsIn.resolve (.pageFault (.inl (by rw [hpi])))).bind fun paPi hp => ?_
  rw [resolve_eq_ok_iff, hpi] at hp
  refine (StopsIn.gpUnless s _).bind fun _ _ => (StopsIn.gpUnless s _).bind fun _ _ => ?_
  refine (StopsIn.gpUnless s _).bind fun _ _ => ?_
  refine (StopsIn.resolve (.pageFault (.inr (.inr (.inr ⟨paPi, hp, .inl rfl⟩))))).bind fun _ _ => ?_
  refine (StopsIn.resolve (.pageFault (.inr (.inr (.inr ⟨paPi, hp, .inr rfl⟩))))).bind fun _ _ => ?_
  refine (StopsIn.require fun _ => .refusal _).bind fun _ _ => ?_
  exact (StopsIn.require fun _ => .refusal _).bind fun _ _ => .ok _

/-- S9 and S10 stop with the VM exit or `#GP(0)` (rules R123, R125, R126). -/
theorem ewbConcurrency_stops (s : State) (r : RegOperands) : StopsIn (PossibleStop s) (ewbConcurrency s r) := by
  unfold ewbConcurrency
  refine (StopsIn.require fun h => ?_).bind fun _ _ => (StopsIn.gpUnless s _).bind fun _ _ => .gpUnless s _
  split <;> rename_i hx
  · obtain ⟨vmx, ext⟩ := Bool.and_eq_true_iff.mp hx
    exact .vmExit _ _ (by simpa using h) vmx ext
  · exact .generalProtection

theorem childKind_stops (s : State) (link : Option Nat) : StopsIn (PossibleStop s) (s.childKind link) := by
  unfold State.childKind
  split
  · exact .error (.refusal _)
  · split
    · exact .ok _
    · exact .error (.refusal _)

theorem sourceKind_stops (s : State) (e : EpcmEntry) : StopsIn (PossibleStop s) (s.sourceKind e) := by
  unfold State.sourceKind
  split
  any_goals exact childKind_stops s _
  · exact .ok _
  · exact .ok _
  · exact .error (.refusal _)

theorem ewbBlockCheck_stops (s : State) (k : SourceKind) : StopsIn (PossibleStop s) (ewbBlockCheck s k) := by
  cases k with
  | child p => exact .gpUnless s _
  | secs => exact .ok _
  | va => exact .ok _

/-- S11 to S13 stop with a `#PF` at the source page or the slot, `#GP(0)` or a refusal (rules R95 to R98). -/
theorem ewbSourceKind_stops {s : State} {r : RegOperands} (hr : RegsReady s r) :
    StopsIn (PossibleStop s) (ewbSourceKind s r) := by
  unfold ewbSourceKind
  refine (StopsIn.require fun _ => .pageFault (.inr (.inl (by rw [hr.src]))) _).bind fun _ _ => ?_
  refine (StopsIn.require fun _ => .pageFault (.inr (.inr (.inl (by rw [hr.va])))) _).bind fun _ _ => ?_
  exact (sourceKind_stops s _).bind fun k _ => (ewbBlockCheck_stops s k).bind fun _ _ => .ok _

/-- What stops EWB before its commit point. -/
theorem ewbChecks_stops (s : State) : StopsIn (PossibleStop s) (ewbChecks s) := by
  have premises : StopsIn (PossibleStop s) s.premises := fun e he => by
    obtain ⟨r, rfl⟩ := premises_stops s e he
    exact .refusal r
  refine premises.bind fun _ _ => (privileged_stops s).bind fun _ _ => ?_
  refine (ewbRegOperands_stops s).bind fun r hr => ?_
  have ready := (ewbRegOperands_eq_ok_iff s r).mp hr
  refine (ewbInfoOperands_stops ready.pi).bind fun _ _ => (ewbConcurrency_stops s r).bind fun _ _ => ?_
  exact (ewbSourceKind_stops ready).bind fun _ _ => .ok _

/-- A fault of EWB is the exception that stopped its checks. -/
theorem exec_fault_cases {s : State} {f : Fault} (h : exec .enclsEwb s = .fault f) :
    ∃ x, PossibleStop s (.exception x) ∧ takeException s x = .fault f := by
  rw [exec_enclsEwb] at h
  unfold execEnclsEwb at h
  split at h <;> rename_i he
  · rename_i stop
    cases stop with
    | exception x => exact ⟨x, ewbChecks_stops s _ he, h⟩
    | vmExit la pa => cases h
    | refusal r => cases h
  · cases h

/-! ### Single tests that fail -/

theorem resolve_of_untranslated {s : State} {o : Operand} {ec : Nat} (h : s.translate o.la .write = .error ec) :
    s.resolve o = .error (.exception (.pageFault o.la ec)) := by
  rw [State.resolve, h]

theorem resolveInEpc_of_untranslated {s : State} {o : Operand} {ec : Nat} (h : s.translate o.la .write = .error ec) :
    s.resolveInEpc o = .error (.exception (.pageFault o.la ec)) := by
  rw [State.resolveInEpc, bind_of_error (resolve_of_untranslated h)]

theorem require_of_false {b : Bool} {e : Stop} (h : b = false) : require b e = .error e :=
  (require_eq_error_iff b e e).mpr ⟨h, rfl⟩

theorem and_eq_false_of_or {a b : Bool} (h : a = false ∨ b = false) : (a && b) = false := Bool.and_eq_false_iff.mpr h

/-! ### S1 to S5 -/

/-- At S1 PAGEINFO or a source page outside the limit, or not canonical, stops (rule R135). -/
theorem ewbRegOperands_of_s1_address {s : State}
    (h : s.addrOk (s.operand s.regs.rbx) 32 = false ∨ s.addrOk (s.operand s.regs.rcx) 4096 = false) :
    ewbRegOperands s = .error (.exception .generalProtection) :=
  bind_of_error (gpUnless_of_false (and_eq_false_of_or h)) _

/-- S2 finds the source page in the EPC (rule R88). -/
theorem S2Passes.source {s : State} {paSrc : Nat} (h : S2Passes s paSrc) :
    s.resolveInEpc (s.operand s.regs.rcx) = .ok paSrc :=
  (resolveInEpc_eq_ok_iff _ _ _).mpr ⟨h.srcPhysical, h.srcInEpc⟩

/-- At S3 a slot outside the limit, or not canonical, stops (rule R135). -/
theorem ewbRegOperands_of_s3_address {s : State} {paSrc : Nat} (h2 : S2Passes s paSrc)
    (h : s.addrOk (s.operand s.regs.rdx) 8 = false) : ewbRegOperands s = .error (.exception .generalProtection) := by
  rw [ewbRegOperands, reg_rbx, reg_rcx, reg_rdx, bind_of_ok h2.s1.addrTest, bind_of_ok h2.s1.alignTest,
    bind_of_ok h2.source, bind_of_error (gpUnless_of_false h)]

/-- S3 passes its limit or canonical test (rule R135). -/
theorem S3Passes.addrTest {s : State} {paSrc : Nat} (h : S3Passes s paSrc) :
    gpUnless (s.addrOk (s.operand s.regs.rdx) 8) = .ok () :=
  (gpUnless_eq_ok_iff _ _).mpr h.vaAddr

/-- S3 passes its alignment test (rule R89). -/
theorem S3Passes.alignTest {s : State} {paSrc : Nat} (h : S3Passes s paSrc) :
    gpUnless (aligned (s.operand s.regs.rdx).la 8) = .ok () :=
  (gpUnless_eq_ok_iff _ _).mpr ((aligned_iff _ _).mpr h.vaAligned)

/-- After S3 the next thing that can stop S1 to S5 is S4 (rule R90). -/
theorem ewbRegOperands_of_s4_stops {s : State} {paSrc : Nat} {e : Stop} (h3 : S3Passes s paSrc)
    (h : s.resolveInEpc (s.operand s.regs.rdx) = .error e) : ewbRegOperands s = .error e := by
  rw [ewbRegOperands, reg_rbx, reg_rcx, reg_rdx, bind_of_ok h3.s2.s1.addrTest, bind_of_ok h3.s2.s1.alignTest,
    bind_of_ok h3.s2.source, bind_of_ok h3.addrTest, bind_of_ok h3.alignTest, bind_of_error h]

/-- At S5 a source page and a slot in one physical page stop (rule R91). -/
theorem ewbRegOperands_of_same_page {s : State} {paSrc paVa : Nat} (h4 : S4Passes s paSrc paVa)
    (h : pageOf paSrc = pageOf paVa) : ewbRegOperands s = .error (.exception .generalProtection) := by
  have slot := (resolveInEpc_eq_ok_iff s _ paVa).mpr ⟨h4.vaPhysical, h4.vaInEpc⟩
  have h3 := h4.s3
  rw [ewbRegOperands, reg_rbx, reg_rcx, reg_rdx, bind_of_ok h3.s2.s1.addrTest, bind_of_ok h3.s2.s1.alignTest,
    bind_of_ok h3.s2.source, bind_of_ok h3.addrTest, bind_of_ok h3.alignTest, bind_of_ok slot,
    bind_of_error (gpUnless_of_false (by rw [h, bne_self_eq_false]))]

/-! ### S6 to S8 -/

/-- At S7 a LINADDR or SECS that is not zero stops (rule R93). -/
theorem ewbInfoOperands_of_nonzero {s : State} {r : RegOperands} {paPi : Nat}
    (hp : s.translate r.pi.la .write = .ok paPi)
    (h : s.mem.readLe (paPi + s.cfg.pageInfo.linaddr) 8 ≠ 0 ∨ s.mem.readLe (paPi + s.cfg.pageInfo.secs) 8 ≠ 0) :
    ewbInfoOperands s r = .error (.exception .generalProtection) := by
  rw [ewbInfoOperands, bind_of_ok ((resolve_eq_ok_iff s r.pi paPi).mpr hp)]
  refine bind_of_error (gpUnless_of_false (and_eq_false_of_or ?_)) _
  rwa [beq_eq_false_iff_ne, beq_eq_false_iff_ne, Ne, Ne, loadWord_eq_zero_iff, loadWord_eq_zero_iff]

/-- S7 finds LINADDR and SECS zero (rule R93). -/
theorem S7Passes.zeroTest {s : State} {r : RegOperands} {paPi : Nat} (h : S7Passes s r paPi) :
    gpUnless (s.loadWord (paPi + s.cfg.pageInfo.linaddr) == 0 && s.loadWord (paPi + s.cfg.pageInfo.secs) == 0) =
      .ok () := by
  rw [gpUnless_eq_ok_iff, Bool.and_eq_true, beq_iff_eq, beq_iff_eq, loadWord_eq_zero_iff, loadWord_eq_zero_iff]
  exact ⟨h.linaddrZero, h.secsZero⟩

/-- After S7 comes S8, and after it the two refusals of the model (rules R66, R67, R94, R135). -/
theorem ewbInfoOperands_after_s7 {s : State} {r : RegOperands} {paPi : Nat} (h7 : S7Passes s r paPi) :
    ewbInfoOperands s r = (do
      gpUnless (s.addrOk (pcmdOperand s paPi) 128 && s.addrOk (outOperand s paPi) 4096)
      gpUnless (aligned (pcmdOperand s paPi).la 128 && aligned (outOperand s paPi).la 4096)
      let paPcmd ← s.resolve (pcmdOperand s paPi)
      let paOut ← s.resolve (outOperand s paPi)
      require (!s.inEpc paPi && !s.inEpc paOut && !s.inEpc paPcmd) (.refusal .nonEpcOperandInEpc)
      require (regionsDisjoint paPi 32 paOut 4096 && regionsDisjoint paPi 32 paPcmd 128 &&
        regionsDisjoint paOut 4096 paPcmd 128) (.refusal .operandsOverlap)
      return { paPi := paPi, pcmd := pcmdOperand s paPi, out := outOperand s paPi,
               paPcmd := paPcmd, paOut := paOut }) := by
  rw [ewbInfoOperands, bind_of_ok ((resolve_eq_ok_iff s r.pi paPi).mpr h7.piPhysical), bind_of_ok h7.zeroTest]
  rfl

/-- S8 passes its limit or canonical test (rule R135). -/
theorem S8AddressesPass.addrTest {s : State} {r : RegOperands} {paPi : Nat} (h : S8AddressesPass s r paPi) :
    gpUnless (s.addrOk (pcmdOperand s paPi) 128 && s.addrOk (outOperand s paPi) 4096) = .ok () :=
  (gpUnless_eq_ok_iff _ _).mpr (Bool.and_eq_true_iff.mpr ⟨h.pcmdAddr, h.outAddr⟩)

/-- S8 passes its alignment test (rule R94). -/
theorem S8AddressesPass.alignTest {s : State} {r : RegOperands} {paPi : Nat} (h : S8AddressesPass s r paPi) :
    gpUnless (aligned (pcmdOperand s paPi).la 128 && aligned (outOperand s paPi).la 4096) = .ok () :=
  (gpUnless_eq_ok_iff _ _).mpr
    (Bool.and_eq_true_iff.mpr ⟨(aligned_iff _ _).mpr h.pcmdAligned, (aligned_iff _ _).mpr h.outAligned⟩)

section S8

variable {s : State} {r : RegOperands} {paPi paPcmd paOut : Nat}

/-- After the address tests of S8 the PCMD is translated (rule R135). -/
theorem ewbInfoOperands_of_pcmd_stops {e : Stop} (h8 : S8AddressesPass s r paPi)
    (h : s.resolve (pcmdOperand s paPi) = .error e) : ewbInfoOperands s r = .error e := by
  rw [ewbInfoOperands_after_s7 h8.s7, bind_of_ok h8.addrTest, bind_of_ok h8.alignTest, bind_of_error h]

/-- After the PCMD the output page is translated (rule R135). -/
theorem ewbInfoOperands_of_out_stops {e : Stop} (h8 : S8AddressesPass s r paPi)
    (hp : s.translate (pcmdOperand s paPi).la .write = .ok paPcmd)
    (h : s.resolve (outOperand s paPi) = .error e) : ewbInfoOperands s r = .error e := by
  rw [ewbInfoOperands_after_s7 h8.s7, bind_of_ok h8.addrTest, bind_of_ok h8.alignTest,
    bind_of_ok ((resolve_eq_ok_iff _ _ _).mpr hp), bind_of_error h]

/-- An operand in the EPC that should be in regular memory stops (rule R66). -/
theorem ewbInfoOperands_of_inEpc (h8 : S8AddressesPass s r paPi)
    (hp : s.translate (pcmdOperand s paPi).la .write = .ok paPcmd)
    (ho : s.translate (outOperand s paPi).la .write = .ok paOut)
    (h : (!s.inEpc paPi && !s.inEpc paOut && !s.inEpc paPcmd) = false) :
    ewbInfoOperands s r = .error (.refusal .nonEpcOperandInEpc) := by
  rw [ewbInfoOperands_after_s7 h8.s7, bind_of_ok h8.addrTest, bind_of_ok h8.alignTest,
    bind_of_ok ((resolve_eq_ok_iff _ _ _).mpr hp), bind_of_ok ((resolve_eq_ok_iff _ _ _).mpr ho),
    bind_of_error (require_of_false h)]

/-- Operands in regular memory that share a byte stop (rule R67). -/
theorem ewbInfoOperands_of_overlap (h8 : S8AddressesPass s r paPi)
    (hp : s.translate (pcmdOperand s paPi).la .write = .ok paPcmd)
    (ho : s.translate (outOperand s paPi).la .write = .ok paOut)
    (hreg : (!s.inEpc paPi && !s.inEpc paOut && !s.inEpc paPcmd) = true)
    (h : (regionsDisjoint paPi 32 paOut 4096 && regionsDisjoint paPi 32 paPcmd 128 &&
      regionsDisjoint paOut 4096 paPcmd 128) = false) :
    ewbInfoOperands s r = .error (.refusal .operandsOverlap) := by
  rw [ewbInfoOperands_after_s7 h8.s7, bind_of_ok h8.addrTest, bind_of_ok h8.alignTest,
    bind_of_ok ((resolve_eq_ok_iff _ _ _).mpr hp), bind_of_ok ((resolve_eq_ok_iff _ _ _).mpr ho),
    bind_of_ok ((require_eq_ok_iff _ _ ()).mpr hreg), bind_of_error (require_of_false h)]

end S8

/-- Two regions with a byte in common are not disjoint (rule R67). -/
theorem regionsDisjoint_eq_false {a n b k : Nat} (h : ∃ x, a ≤ x ∧ x < a + n ∧ b ≤ x ∧ x < b + k) :
    regionsDisjoint a n b k = false := by
  obtain ⟨x, h1, h2, h3, h4⟩ := h
  rw [← Bool.not_eq_true, regionsDisjoint_iff]
  omega

/-! ### S9 and S10 -/

/-- S9: the VM exit or `#GP(0)` (rule R123). -/
theorem ewbConcurrency_of_srcConflict {s : State} (r : RegOperands) (h : s.srcConflict = true) :
    ewbConcurrency s r =
      .error (if s.conflictExits then .vmExit r.src.la r.paSrc else .exception .generalProtection) := by
  rw [ewbConcurrency, bind_of_error (require_of_false (by rw [h, Bool.not_true]))]

/-- S10: `#GP(0)` on any other conflict (rules R125, R126). -/
theorem ewbConcurrency_of_other_conflict {s : State} {r : RegOperands} (hs : s.srcConflict = false)
    (h : s.vaModified = true ∨ s.secsConflict r.paSrc = true ∨ s.trackingResourceInUse = true) :
    ewbConcurrency s r = .error (.exception .generalProtection) := by
  rw [ewbConcurrency, bind_of_ok ((require_eq_ok_iff _ _ ()).mpr (by rw [hs, Bool.not_false]))]
  rcases h with h | h
  · exact bind_of_error (gpUnless_of_false (by rw [h, Bool.not_true])) _
  · refine gpUnless_bind_of_gp _ (gpUnless_of_false (and_eq_false_of_or ?_))
    simpa using h

/-! ### S11 to S13 -/

/-- S11: a source page that is not valid (rule R95). -/
theorem ewbSourceKind_of_invalid {s : State} {r : RegOperands} (h : (s.epcm r.paSrc).valid = false) :
    ewbSourceKind s r = .error (s.ownPageFault r.src) :=
  bind_of_error (require_of_false h) _

/-- S12: a slot that is in no valid VA page (rule R96). -/
theorem ewbSourceKind_of_bad_va {s : State} {r : RegOperands} (hv : (s.epcm r.paSrc).valid = true)
    (h : (s.epcm r.paVa).valid = false ∨ (s.epcm r.paVa).pt ≠ .va) :
    ewbSourceKind s r = .error (s.ownPageFault r.va) := by
  rw [ewbSourceKind, bind_of_ok ((require_eq_ok_iff _ _ ()).mpr hv)]
  refine bind_of_error (require_of_false (and_eq_false_of_or ?_)) _
  rwa [beq_eq_false_iff_ne]

/-- S12 finds the slot in a valid VA page (rule R96). -/
theorem S12Passes.slotTest {s : State} {r : RegOperands} {m : InfoOperands} (h : S12Passes s r m) :
    ((s.epcm r.paVa).valid && (s.epcm r.paVa).pt == .va) = true := by
  rw [Bool.and_eq_true, beq_iff_eq]
  exact ⟨h.vaValid, h.vaType⟩

/-- At S13 a page of no kind stops (rules R36, R98). -/
theorem ewbSourceKind_of_no_kind {s : State} {r : RegOperands} {m : InfoOperands} {e : Stop} (h12 : S12Passes s r m)
    (h : s.sourceKind (s.epcm r.paSrc) = .error e) : ewbSourceKind s r = .error e := by
  rw [ewbSourceKind, bind_of_ok ((require_eq_ok_iff _ _ ()).mpr h12.s11.srcValid),
    bind_of_ok ((require_eq_ok_iff _ _ ()).mpr h12.slotTest), bind_of_error h]

/-- At S13 a child page whose blocking is not correct stops (rule R97). -/
theorem ewbSourceKind_of_bad_block {s : State} {r : RegOperands} {m : InfoOperands} {p : Nat} (h12 : S12Passes s r m)
    (hk : s.sourceKind (s.epcm r.paSrc) = .ok (.child p)) (hb : s.env.eblockCorrect = false) :
    ewbSourceKind s r = .error (.exception .generalProtection) := by
  rw [ewbSourceKind, bind_of_ok ((require_eq_ok_iff _ _ ()).mpr h12.s11.srcValid),
    bind_of_ok ((require_eq_ok_iff _ _ ()).mpr h12.slotTest), bind_of_ok hk, ewbBlockCheck,
    bind_of_error (gpUnless_of_false hb)]

/-- A type that is none of the seven is of no kind (rule R98). -/
theorem sourceKind_of_not_named {s : State} {e : EpcmEntry} (h : namedType e.pt = false) :
    s.sourceKind e = .error (.refusal .pageTypeNotNamed) := by
  unfold State.sourceKind
  cases hp : e.pt with
  | other v => rfl
  | _ => rw [hp] at h; cases h

/-- A child page is what its link says (rule R36). -/
theorem sourceKind_of_child {s : State} {e : EpcmEntry} (h : isChildType e.pt = true) :
    s.sourceKind e = s.childKind e.enclaveSecs := by
  unfold State.sourceKind
  cases hp : e.pt with
  | secs => rw [hp] at h; cases h
  | va => rw [hp] at h; cases h
  | other v => rw [hp] at h; cases h
  | _ => rfl

/-- A link that names no valid SECS page (rule R36). -/
theorem childKind_of_broken {s : State} {link : Option Nat} (h : ∀ p, link = some p → s.isValidSecs p = false) :
    s.childKind link = .error (.refusal .secsLinkBroken) := by
  cases link with
  | none => rfl
  | some p => rw [State.childKind, h p rfl]; rfl

/-! ### From a stop after S5 to the outcome -/

/-- The outcome of a stop in S6 to S8. -/
theorem exec_of_infoOperands {s : State} {r : RegOperands} {e : Stop} (h5 : S5Passes s r)
    (h : ewbInfoOperands s r = .error e) : exec .enclsEwb s = stopped s e :=
  execEnclsEwb_of_infoOperands h5.admitted h5.cpl h5.regs h

/-- The outcome of a stop in S9 and S10. -/
theorem exec_of_concurrency {s : State} {r : RegOperands} {m : InfoOperands} {e : Stop} (h8 : S8Passes s r m)
    (h : ewbConcurrency s r = .error e) : exec .enclsEwb s = stopped s e :=
  execEnclsEwb_of_concurrency h8.s5.admitted h8.s5.cpl h8.s5.regs h8.info h

/-- The outcome of a stop in S11 to S13. -/
theorem exec_of_sourceKind {s : State} {r : RegOperands} {m : InfoOperands} {e : Stop} (h8 : S8Passes s r m)
    (hq : Quiet s r) (h : ewbSourceKind s r = .error e) : exec .enclsEwb s = stopped s e :=
  execEnclsEwb_of_sourceKind h8.s5.admitted h8.s5.cpl h8.s5.regs h8.info hq h

/-- The VM exit of S9 (rule R123). -/
theorem exec_of_vmExit {s : State} {r : RegOperands} {m : InfoOperands} (h8 : S8Passes s r m)
    (hs : s.srcConflict = true) (hv : s.vmxCond = true) (he : s.epcVirtExtensions = true) :
    exec .enclsEwb s = .next (s.deliverVmExit r.src.la r.paSrc) := by
  have exits : s.conflictExits = true := Bool.and_eq_true_iff.mpr ⟨hv, he⟩
  rw [exec_of_concurrency h8 (ewbConcurrency_of_srcConflict r hs), if_pos exits]
  rfl

/-! ### The limit and the canonical test -/

/-- No byte of an operand is outside the DS limit (rule R46). -/
theorem addrOk_prot_iff {s : State} (o : Operand) {size : Nat} (hs : 0 < size) (hm : s.mode = .modeProt) :
    s.addrOk o size = true ↔ ∀ i, i < size → s.ds.lowest ≤ o.off.toNat + i ∧ o.off.toNat + i ≤ s.ds.highest := by
  rw [State.addrOk, if_pos hm, State.dsLimitOk, Bool.and_eq_true, decide_eq_true_eq, decide_eq_true_eq]
  refine ⟨fun ⟨h1, h2⟩ i hi => by omega, fun h => ?_⟩
  have first := h 0 hs
  have last := h (size - 1) (by omega)
  omega

/-- The bits from the implemented width minus one up are all equal (rule R47). -/
theorem addrOk_64_iff {s : State} (o : Operand) (size : Nat) (hm : s.mode = .mode64) :
    s.addrOk o size = true ↔ ∀ i, s.cfg.linearWidth - 1 ≤ i → i < 64 → o.la.getLsbD i = o.la.getLsbD 63 := by
  rw [State.addrOk, if_neg (by rw [hm]; decide), canonical]
  simp only [List.all_eq_true, List.mem_range, Bool.or_eq_true, decide_eq_true_eq, beq_iff_eq]
  exact ⟨fun h i hw hi => (h i hi).resolve_left (by omega), fun h i hi => or_iff_not_imp_left.mpr fun hw =>
    h i (by omega) hi⟩

/-! ### The obligations: before S1, S1 to S5 -/

/-- Settles O28: the privilege check stands before S1. -/
theorem notPrivilegedFaults : Obligations.NotPrivilegedFaults :=
  ⟨fun _ ha hc => execEnclsEwb_of_privileged ha (require_of_false (beq_eq_false_iff_ne.mpr hc)), rfl⟩

/-- Settles O47: the premises come first, and each that fails is a refusal. -/
theorem unadmittedStateRefused : Obligations.UnadmittedStateRefused := by
  intro s hn
  cases hp : s.premises with
  | ok u => exact absurd ((premises_eq_ok_iff s u).mp hp) hn
  | error e =>
    obtain ⟨r, rfl⟩ := premises_stops s e hp
    exact ⟨r, execEnclsEwb_of_premises hp⟩

/-- Settles O30: both causes of S2. -/
theorem sourceOutsideEpcFaults : Obligations.SourceOutsideEpcFaults := fun _ h1 =>
  ⟨fun _ ht => execEnclsEwb_of_regOperands h1.admitted h1.cpl
      (ewbRegOperands_of_s2_stops h1 (resolveInEpc_of_untranslated ht)),
    fun _ ht hi => execEnclsEwb_of_regOperands h1.admitted h1.cpl
      (ewbRegOperands_of_s2_stops h1 (resolveInEpc_of_outside ht hi))⟩

/-- Settles O32: both causes of S4. -/
theorem slotOutsideEpcFaults : Obligations.SlotOutsideEpcFaults := fun _ _ h3 =>
  ⟨fun _ ht => execEnclsEwb_of_regOperands h3.s2.s1.admitted h3.s2.s1.cpl
      (ewbRegOperands_of_s4_stops h3 (resolveInEpc_of_untranslated ht)),
    fun _ ht hi => execEnclsEwb_of_regOperands h3.s2.s1.admitted h3.s2.s1.cpl
      (ewbRegOperands_of_s4_stops h3 (resolveInEpc_of_outside ht hi))⟩

/-- Settles O33: S5 compares physical pages. -/
theorem samePageFaults : Obligations.SamePageFaults := fun _ _ _ h4 h =>
  execEnclsEwb_of_regOperands h4.s3.s2.s1.admitted h4.s3.s2.s1.cpl (ewbRegOperands_of_same_page h4 h)

/-! ### The obligations: S6 to S8 -/

/-- Settles O34: S6 translates PAGEINFO, S8 the PCMD and then the output page. -/
theorem infoOperandPageFaults : Obligations.InfoOperandPageFaults :=
  ⟨fun _ _ _ h5 ht => exec_of_infoOperands h5 (bind_of_error (resolve_of_untranslated ht) _),
    fun _ _ _ _ h8 ht => exec_of_infoOperands h8.s7.s5 (ewbInfoOperands_of_pcmd_stops h8 (resolve_of_untranslated ht)),
    fun _ _ _ _ _ h8 hp ht =>
      exec_of_infoOperands h8.s7.s5 (ewbInfoOperands_of_out_stops h8 hp (resolve_of_untranslated ht))⟩

/-- Settles O35: S7 tests both fields, and an eviction leaves the enclave address in LINADDR. -/
theorem nonZeroLinaddrOrSecsFaults : Obligations.NonZeroLinaddrOrSecsFaults := by
  have faults : ∀ (s : State) (r : RegOperands) (paPi : Nat), S5Passes s r → s.translate r.pi.la .write = .ok paPi →
      (s.mem.readLe (paPi + s.cfg.pageInfo.linaddr) 8 ≠ 0 ∨ s.mem.readLe (paPi + s.cfg.pageInfo.secs) 8 ≠ 0) →
      exec .enclsEwb s = .fault (gpFault s) := fun s r paPi h5 ht h =>
    exec_of_infoOperands h5 (ewbInfoOperands_of_nonzero ht h)
  refine ⟨faults, fun s t u c ids r hr he ht ha hm hcfg h5 hpi => faults u r _ h5 hpi (.inl ?_)⟩
  rw [exec_of_evictable hr he, Host.Outcome.next.injEq] at ht
  rw [hm, hcfg, ← ht, ewbEvict_mem, read_linaddr hr]
  exact fun h => ha (BitVec.eq_of_toNat_eq h)

/-- Settles O37: the tests at S1, S3 and S8, and what they say in each mode. -/
theorem addressTestFaults : Obligations.AddressTestFaults := by
  refine ⟨fun s ha hc h => ?_, fun s paSrc h2 h => ?_, fun s r paPi h7 h => ?_,
    fun s o size hs hm => addrOk_prot_iff o hs hm, fun s o size hm => addrOk_64_iff o size hm⟩
  · exact execEnclsEwb_of_regOperands ha hc (ewbRegOperands_of_s1_address h)
  · exact execEnclsEwb_of_regOperands h2.s1.admitted h2.s1.cpl (ewbRegOperands_of_s3_address h2 h)
  · refine exec_of_infoOperands (e := .exception .generalProtection) h7.s5 ?_
    rw [ewbInfoOperands_after_s7 h7, bind_of_error (gpUnless_of_false (and_eq_false_of_or h))]

/-- Settles O38: the two refusals stand after S8, that of rule R66 first. -/
theorem nonEpcOperandsRefused : Obligations.NonEpcOperandsRefused := by
  intro s r paPi paPcmd paOut h8 hp ho
  refine ⟨fun h => ?_, fun hPi hOut hPcmd h => ?_⟩
  · refine exec_of_infoOperands h8.s7.s5 (ewbInfoOperands_of_inEpc h8 hp ho ?_)
    rcases h with h | h | h <;> simp [h]
  · refine exec_of_infoOperands h8.s7.s5 (ewbInfoOperands_of_overlap h8 hp ho (by simp [hPi, hOut, hPcmd]) ?_)
    rcases h with h | h | h <;> simp [regionsDisjoint_eq_false h]

/-! ### The obligations: S9 and S10 -/

/-- A next state is the VM exit of a source conflict in a guest with the extensions, or that of a state that passed
the checks (rules R123, R124). -/
theorem vmExit_or_ready_of_next {s t : State} (h : exec .enclsEwb s = .next t) :
    (s.srcConflict = true ∧ s.vmxCond = true ∧ s.epcVirtExtensions = true ∧ ∃ la pa, t = s.deliverVmExit la pa) ∨
      ∃ c, EwbReady s c ∧ t.vmExited = false := by
  rcases execEnclsEwb_next_cases h with ⟨la, pa, he, rfl⟩ | ⟨c, code, hr, -, rfl⟩ | ⟨c, ids, hr, -, rfl⟩
  · cases ewbChecks_stops s _ he with
    | vmExit _ _ conflict vmx ext => exact .inl ⟨conflict, vmx, ext, la, pa, rfl⟩
  · exact .inr ⟨c, hr, by rw [ewbErrorExit_vmExited, hr.admitted.noExit]⟩
  · exact .inr ⟨c, hr, by rw [ewbEvict_vmExited, hr.admitted.noExit]⟩

/-- Settles O39: S9 by the two conditions; a next state without other instructions in flight is a completion. -/
theorem sourceConflictOutcome : Obligations.SourceConflictOutcome := by
  refine ⟨fun s r m h8 hs => ⟨fun hv he => ⟨_, exec_of_vmExit h8 hs hv he, rfl⟩, fun h => ?_⟩, fun s t ha h => ?_⟩
  · have stays : s.conflictExits = false := and_eq_false_of_or h
    rw [exec_of_concurrency h8 (ewbConcurrency_of_srcConflict r hs), stays]
    rfl
  · have alone : s.srcConflict = false := by rw [State.srcConflict, ha, Bool.false_and]
    rcases vmExit_or_ready_of_next h with ⟨conflict, -⟩ | ⟨c, -, hx⟩
    · rw [alone] at conflict
      cases conflict
    · exact ⟨alone, hx⟩

/-- Settles O40: the VM exit, field by field. -/
theorem vmExitWritesFiveFields : Obligations.VmExitWritesFiveFields := by
  intro s r m h8 hs hv he
  exact ⟨_, exec_of_vmExit h8 hs hv he, rfl, rfl, rfl, rfl, rfl, rfl, rfl, unchanged_vmExit s _ _, rfl, rfl, rfl⟩

/-- Settles O41: the recorded exit is the first premise that fails. -/
theorem vmExitIsTerminal : Obligations.VmExitIsTerminal := by
  intro s hx
  have refused : execEnclsEwb s = .refused .vmExitRecorded := execEnclsEwb_of_premises <| by
    rw [State.premises, bind_of_error (require_of_false (by rw [hx, Bool.not_true]))]
  refine ⟨refused, fun t h => ?_⟩
  have next := execEnclsEwb_of_step_next h
  rw [refused] at next
  cases next

/-- A page that S11 to S13 find to be no child has no SECS conflict (rule R126). -/
theorem secsConflict_of_not_child {s : State} {r : RegOperands} {k : SourceKind} (h : SourceReady s r k)
    (hk : ∀ p, k ≠ .child p) : s.secsConflict r.paSrc = false := by
  have kind := h.kind
  have noChild : isChildType (s.epcm r.paSrc).pt = false := by
    cases k with
    | child p => exact absurd rfl (hk p)
    | secs => rw [show (s.epcm r.paSrc).pt = .secs from kind]; rfl
    | va => rw [show (s.epcm r.paSrc).pt = .va from kind]; rfl
  simp [State.secsConflict, h.srcValid, noChild]

/-- Settles O42: each conflict of S10 is `#GP(0)`; without them S11 to S13 decide. -/
theorem otherConflictsFault : Obligations.OtherConflictsFault := by
  refine ⟨fun s r m h8 hs h => exec_of_concurrency h8 (ewbConcurrency_of_other_conflict hs h),
    fun s r m k h8 hk h => ?_⟩
  have quiet : Quiet s r := by
    rcases h with alone | ⟨hs, hva, ht, hc⟩
    · exact quiet_of_alone alone r
    · exact ⟨hs, hva, secsConflict_of_not_child hk hc, ht⟩
  have ready : EwbReady s { regs := r, info := m, kind := k } :=
    ⟨h8.s5.admitted, h8.s5.cpl, h8.s5.regs, h8.info, quiet, hk⟩
  obtain ⟨t, ht, -, -, -, -, -, hx, -⟩ := ewbCompletesWhenReady s _ ready
  exact ⟨t, ht, hx⟩

/-! ### The obligations: S11 to S13, and every fault -/

/-- Settles O43: S11 is the first test after the conflicts. -/
theorem invalidSourcePageFaults : Obligations.InvalidSourcePageFaults := fun _ _ _ h8 hq h =>
  exec_of_sourceKind h8 hq (ewbSourceKind_of_invalid h)

/-- Settles O44: both causes of S12. -/
theorem badVaPageFaults : Obligations.BadVaPageFaults := fun _ _ _ h11 h =>
  exec_of_sourceKind h11.s8 h11.quiet (ewbSourceKind_of_bad_va h11.srcValid h)

/-- Settles O45: S13 finds the kind first and then tests blocking. -/
theorem pageTypeChecks : Obligations.PageTypeChecks := by
  intro s r m h12
  have outcome {e : Stop} (h : ewbSourceKind s r = .error e) : exec .enclsEwb s = stopped s e :=
    exec_of_sourceKind h12.s11.s8 h12.s11.quiet h
  refine ⟨fun p hc hl hv hb => ?_, fun hn => ?_, fun hc hl => ?_⟩
  · exact outcome (ewbSourceKind_of_bad_block h12 ((sourceKind_eq_ok_iff s _ _).mpr ⟨hc, hl, hv⟩) hb)
  · exact outcome (ewbSourceKind_of_no_kind h12 (sourceKind_of_not_named hn))
  · exact outcome (ewbSourceKind_of_no_kind h12 ((sourceKind_of_child hc).trans (childKind_of_broken hl)))

/-- Settles O46: by what can stop EWB. -/
theorem faultRecordContents : Obligations.FaultRecordContents := by
  intro s f h
  obtain ⟨x, possible, taken⟩ := exec_fault_cases h
  cases possible with
  | generalProtection => exact .inl (Host.Outcome.fault.inj taken).symm
  | pageFault address ec => exact .inr (.inl ⟨_, ec, (Host.Outcome.fault.inj taken).symm, address⟩)
  | notPrivileged hc => exact .inr (.inr ⟨hc, (Host.Outcome.fault.inj taken).symm⟩)

end Sys2Proof.Machine
end

section
/-! Proofs about every next state: what EWB leaves as it was, what it does to the EPCM, and the invariant that every
step keeps (rules R18, R19, R36, R40, R62, R70, R113, R149). -/

namespace Sys2Proof.Machine

/-! ### The operations that read a part of the state -/

theorem translate_congr {s t : State} (h : t.paging = s.paging) (la : Word) (acc : Access) :
    t.translate la acc = s.translate la acc := by
  rw [State.translate, h, State.translate]

theorem operand_congr {s t : State} (hm : t.mode = s.mode) (hd : t.ds = s.ds) (v : Word) :
    t.operand v = s.operand v := by
  rw [State.operand, hm, hd, State.operand]

/-! ### The EPCM after an invalidation -/

/-- An entry that is valid after an invalidation is that of another page, and as it was. -/
theorem mem_invalidate_valid {s : State} {page : Nat} {e : Nat × EpcPage} (he : e ∈ (s.invalidate page).epc)
    (hv : e.2.entry.valid = true) : e ∈ s.epc ∧ e.1 ≠ page := by
  obtain ⟨e₀, hmem, rfl⟩ := List.mem_map.mp he
  by_cases h : e₀.1 = page
  · rw [if_pos h] at hv
    cases hv
  · rw [if_neg h]
    exact ⟨hmem, h⟩

/-- An invalidation keeps the pages of the EPC, in their order. -/
theorem invalidate_keys (s : State) (page : Nat) : (s.invalidate page).epc.map (·.1) = s.epc.map (·.1) := by
  rw [invalidate_epc, List.map_map]
  refine List.map_congr_left fun e _ => ?_
  simp only [Function.comp_apply]
  split <;> rfl

/-- An invalidation takes no other page's SECS away. -/
theorem isValidSecs_invalidate {s : State} {page p : Nat} (h : p ≠ page) :
    (s.invalidate page).isValidSecs p = s.isValidSecs p := by
  rw [State.isValidSecs, epcPage?_invalidate, State.isValidSecs]
  cases s.epcPage? p <;> simp [h]

/-- A page is a valid SECS page by the entry of any address in it. -/
theorem isValidSecs_pageOf (s : State) (pa : Nat) :
    s.isValidSecs (pageOf pa) = ((s.epcm pa).valid && (s.epcm pa).pt == .secs) := by
  rw [State.isValidSecs, State.epcm]
  cases s.epcPage? (pageOf pa) <;> rfl

theorem hasChild_iff (s : State) (p : Nat) :
    s.hasChild p = true ↔ ∃ e ∈ s.epc, e.2.entry.isChildOf p = true := by
  rw [State.hasChild, List.any_eq_true]

theorem isChildOf_iff (e : EpcmEntry) (p : Nat) :
    e.isChildOf p = true ↔ e.valid = true ∧ isChildType e.pt = true ∧ e.enclaveSecs = some p := by
  rw [EpcmEntry.isChildOf, Bool.and_eq_true, Bool.and_eq_true, beq_iff_eq, and_assoc]

/-- No valid child page links to a page that may be evicted: it has no child if it is a SECS page, and is no child's
SECS otherwise (rules R36, R103). -/
theorem link_ne_evicted {s : State} {c : EwbContext} {ids : EnclaveIds} (hr : EwbReady s c) (he : Evictable s c ids)
    {e : Nat × EpcPage} {p : Nat} (hmem : e ∈ s.epc) (hchild : e.2.entry.isChildOf p = true)
    (hsecs : s.isValidSecs p = true) : p ≠ pageOf c.regs.paSrc := by
  rintro rfl
  rw [isValidSecs_pageOf, Bool.and_eq_true, beq_iff_eq] at hsecs
  have kind := hr.source.kind
  unfold Evictable at he
  cases hk : c.kind with
  | child q =>
    rw [hk] at kind
    have hc := kind.1
    rw [hsecs.2] at hc
    cases hc
  | secs =>
    rw [hk] at he
    have hc := (hasChild_iff s _).mpr ⟨e, hmem, hchild⟩
    rw [he.1] at hc
    cases hc
  | va =>
    rw [hk] at kind
    have type : (s.epcm c.regs.paSrc).pt = .va := kind
    rw [hsecs.2] at type
    cases type

/-! ### All that a next state's EPC and memory can be -/

/-- A next state has the memory and the EPC it had, or is an eviction's. -/
theorem kept_or_evicted_of_next {s t : State} (h : execEnclsEwb s = .next t) :
    (t.mem = s.mem ∧ t.epc = s.epc ∧ t.ewbWritten = s.ewbWritten) ∨
      ∃ c ids, EwbReady s c ∧ Evictable s c ids ∧ t = ewbEvict s c ids := by
  rcases execEnclsEwb_next_cases h with ⟨la, pa, -, rfl⟩ | ⟨c, code, -, -, rfl⟩ | evicted
  · exact .inl ⟨rfl, rfl, rfl⟩
  · exact .inl ⟨ewbErrorExit_mem s code, ewbErrorExit_epc s code, ewbErrorExit_ewbWritten s code⟩
  · exact .inr evicted

theorem unchanged_of_next {s t : State} (h : execEnclsEwb s = .next t) : Unchanged s t := by
  rcases execEnclsEwb_next_cases h with ⟨la, pa, -, rfl⟩ | ⟨c, code, -, -, rfl⟩ | ⟨c, ids, -, -, rfl⟩
  · exact unchanged_vmExit s la pa
  · exact unchanged_errorExit s code
  · exact unchanged_evict s c ids

theorem otherBits_of_next {s t : State} (h : execEnclsEwb s = .next t) : OtherFlagBitsKept s t := by
  rcases execEnclsEwb_next_cases h with ⟨la, pa, -, rfl⟩ | ⟨c, code, -, -, rfl⟩ | ⟨c, ids, -, -, rfl⟩
  · exact fun _ _ => rfl
  · exact ewbErrorExit_otherBits s code
  · exact ewbEvict_otherBits s c ids

/-- What does not depend on VALID a next state has of every EPC page as before (rules R19, R113). -/
theorem epcPage?_map_of_next {s t : State} (h : execEnclsEwb s = .next t) {α : Type} (f : EpcPage → α)
    (hf : ∀ x : EpcPage, f x.invalidated = f x) (page : Nat) : (t.epcPage? page).map f = (s.epcPage? page).map f := by
  rcases kept_or_evicted_of_next h with ⟨-, he, -⟩ | ⟨c, ids, -, -, rfl⟩
  · rw [epcPage?_congr he]
  · rw [ewbEvict_epcPage?, Option.map_map]
    refine congrArg (Option.map · _) (funext fun x => ?_)
    simp only [Function.comp_apply]
    split
    · exact hf x
    · rfl

theorem inEpc_of_next {s t : State} (h : execEnclsEwb s = .next t) (pa : Nat) : t.inEpc pa = s.inEpc pa := by
  have pages := epcPage?_map_of_next h (fun _ => ()) (fun _ => rfl) (pageOf pa)
  rw [State.inEpc, State.inEpc, ← Option.isSome_map (f := fun _ => ()), pages, Option.isSome_map]

/-- Every field of an entry but VALID is as before (rule R113). -/
theorem epcm_of_next {s t : State} (h : execEnclsEwb s = .next t) (pa : Nat) :
    { t.epcm pa with valid := false } = { s.epcm pa with valid := false } := by
  have pages := epcPage?_map_of_next h (fun x => { x.entry with valid := false }) (fun _ => rfl) (pageOf pa)
  rw [epcm_eq_getD, epcm_eq_getD]
  revert pages
  cases t.epcPage? (pageOf pa) <;> cases s.epcPage? (pageOf pa) <;> simp

/-- A child of a page after a next state is a child it had (rule R40). -/
theorem hasChild_of_next {s t : State} {p : Nat} (h : execEnclsEwb s = .next t) (hc : t.hasChild p = true) :
    s.hasChild p = true := by
  obtain ⟨e, he, child⟩ := (hasChild_iff t p).mp hc
  rw [hasChild_iff]
  rcases kept_or_evicted_of_next h with ⟨-, same, -⟩ | ⟨c, ids, -, -, rfl⟩
  · exact ⟨e, same ▸ he, child⟩
  · rw [ewbEvict_epc] at he
    exact ⟨e, (mem_invalidate_valid he ((isChildOf_iff _ p).mp child).1).1, child⟩

/-! ### The record of the bytes EWB wrote -/

theorem writtenByEwb_iff (s : State) (x : Nat) :
    s.writtenByEwb x = true ↔ ∃ r ∈ s.ewbWritten, r.1 ≤ x ∧ x < r.1 + r.2 := by
  simp [State.writtenByEwb]

/-- A longer record holds what a shorter one does. -/
theorem writtenByEwb_mono {s t : State} (h : s.ewbWritten ⊆ t.ewbWritten) {x : Nat} (hx : s.writtenByEwb x = true) :
    t.writtenByEwb x = true := by
  rw [writtenByEwb_iff] at hx ⊢
  obtain ⟨r, hr, hin⟩ := hx
  exact ⟨r, h hr, hin⟩

theorem ewbWritten_of_next {s t : State} (h : execEnclsEwb s = .next t) : s.ewbWritten ⊆ t.ewbWritten := by
  rcases kept_or_evicted_of_next h with ⟨-, -, same⟩ | ⟨c, ids, -, -, rfl⟩
  · rw [same]
    exact List.Subset.refl _
  · rw [ewbEvict_ewbWritten]
    exact List.subset_append_left _ _

/-- An eviction records every byte it writes (rule R70). -/
theorem writtenByEwb_of_covers {s : State} {c : EwbContext} {ids : EnclaveIds} {w : Write} {x : Nat}
    (hw : w ∈ evictWrites s c ids) (hx : w.covers x) : (ewbEvict s c ids).writtenByEwb x = true := by
  rw [writtenByEwb_iff, ewbEvict_ewbWritten]
  exact ⟨_, List.mem_append_right _ (List.mem_map_of_mem hw), hx⟩

/-! ### The invariant -/

/-- The invariant speaks of memory and the EPC only. -/
theorem inv_congr {s t : State} (hm : t.mem = s.mem) (he : t.epc = s.epc) (h : s.Inv) : t.Inv where
  memory := hm ▸ h.memory
  epcOrdered := he ▸ h.epcOrdered
  epcAligned := he ▸ h.epcAligned
  types := he ▸ h.types
  links e hmem hv hc := by
    obtain ⟨p, hl, hs⟩ := h.links e (he ▸ hmem) hv hc
    refine ⟨p, hl, ?_⟩
    rwa [State.isValidSecs, epcPage?_congr he]

/-- An eviction keeps the invariant: no child page is left without its SECS (rules R36, R103). -/
theorem evict_inv {s : State} {c : EwbContext} {ids : EnclaveIds} (hr : EwbReady s c) (he : Evictable s c ids)
    (h : s.Inv) : (ewbEvict s c ids).Inv := by
  have epc := ewbEvict_epc s c ids
  have keys := invalidate_keys s (pageOf c.regs.paSrc)
  constructor
  case memory =>
    rw [ewbEvict_mem]
    exact applyWrites_wf h.memory _
  case epcOrdered =>
    have ordered := List.pairwise_map.mpr h.epcOrdered
    rw [epc]
    rw [← keys] at ordered
    exact List.pairwise_map.mp ordered
  case epcAligned =>
    rw [epc]
    intro e hmem
    have key := List.mem_map_of_mem (f := (·.1)) hmem
    rw [keys] at key
    obtain ⟨e₀, hmem₀, same⟩ := List.mem_map.mp key
    rw [← same]
    exact h.epcAligned e₀ hmem₀
  case types =>
    rw [epc]
    intro e hmem hv
    exact h.types e (mem_invalidate_valid hmem hv).1 hv
  case links =>
    rw [epc]
    intro e hmem hv hc
    obtain ⟨before, -⟩ := mem_invalidate_valid hmem hv
    obtain ⟨p, hl, hs⟩ := h.links e before hv hc
    have other := link_ne_evicted hr he before ((isChildOf_iff _ p).mpr ⟨hv, hc, hl⟩) hs
    refine ⟨p, hl, ?_⟩
    rwa [State.isValidSecs, epcPage?_congr epc, ← State.isValidSecs, isValidSecs_invalidate other]

/-! ### The obligations -/

/-- Settles O53: an eviction is the one next state that changes memory or the EPC. -/
theorem stepKeepsInvariant : Obligations.StepKeepsInvariant := by
  intro s t h hstep
  rcases kept_or_evicted_of_next (execEnclsEwb_of_step_next hstep) with ⟨hm, he, -⟩ | ⟨c, ids, hr, he, rfl⟩
  · exact inv_congr hm he h
  · exact evict_inv hr he h

/-- Settles O8: the fetch looks each byte up in the record, and the record only grows. -/
theorem bytesEwbWroteAreNotFetched : Obligations.BytesEwbWroteAreNotFetched := by
  refine ⟨fun s i pa hi ht hw => ?_, fun s t c ids hr he h x ⟨w, hw, hx⟩ => ?_, fun s t h x hx => ?_,
    fun s ws x hx => ?_⟩
  · obtain ⟨r, hr⟩ := fetchBytes_error_of_byte hi (fetchByte_of_written ht hw)
    exact ⟨r, step_of_fetch_error hr⟩
  · rw [exec_of_evictable hr he, Host.Outcome.next.injEq] at h
    rw [← h]
    exact writtenByEwb_of_covers hw hx
  · exact writtenByEwb_mono (ewbWritten_of_next (execEnclsEwb_of_step_next h)) hx
  · rwa [State.writtenByEwb, (envStep_kept s ws).ewbWritten]

/-- Settles O25: of an EPC page EWB writes VALID at most. -/
theorem ewbRegisterFrame : Obligations.EwbRegisterFrame := by
  intro s t h
  refine ⟨unchanged_of_next h, otherBits_of_next h, inEpc_of_next h, fun page => ?_, fun page => ?_, epcm_of_next h⟩
  · rw [State.secsEid, epcPage?_map_of_next h _ (fun _ => rfl), State.secsEid]
  · rw [State.secsVirtChildCnt, epcPage?_map_of_next h _ (fun _ => rfl), State.secsVirtChildCnt]

/-- Settles O27: a completion has passed the checks. -/
theorem onlyVmExitWithoutCommit : Obligations.OnlyVmExitWithoutCommit := by
  intro s t hn h
  rcases vmExit_or_ready_of_next h with ⟨conflict, vmx, ext, la, pa, rfl⟩ | ⟨c, hr, -⟩
  · exact ⟨rfl, rfl, rfl, rfl, rfl, rfl, conflict, vmx, ext⟩
  · exact absurd hr (hn c)

/-- Settles O57: an invalidation makes no entry a child, and no longer leaves the evicted one a child. -/
theorem childrenOnlyLeave : Obligations.ChildrenOnlyLeave := by
  refine ⟨fun s t p h hc => hasChild_of_next (execEnclsEwb_of_step_next h) hc, fun s t c ids p hr he h only => ?_⟩
  rw [exec_of_evictable hr he, Host.Outcome.next.injEq] at h
  rw [← h, ← Bool.not_eq_true, hasChild_iff, ewbEvict_epc]
  rintro ⟨e, hmem, child⟩
  obtain ⟨before, other⟩ := mem_invalidate_valid hmem ((isChildOf_iff _ p).mp child).1
  exact other (only e before child)

/-- The source page of a state with the same RCX, mode, DS and paging is the same physical page. -/
theorem source_eq {s u : State} {r q : RegOperands} (hrcx : u.regs.rcx = s.regs.rcx) (hm : u.mode = s.mode)
    (hd : u.ds = s.ds) (hp : u.paging = s.paging) (hr : RegsReady s r) (hq : RegsReady u q) : q.paSrc = r.paSrc := by
  have physical := hq.srcPhysical
  rw [hq.src, hrcx, operand_congr hm hd, translate_congr hp, ← hr.src, hr.srcPhysical] at physical
  exact (Except.ok.inj physical).symm

/-- Settles O58: the entry of the page RCX names is not valid, which S11 tests. -/
theorem evictedPageIsNotEvictedAgain : Obligations.EvictedPageIsNotEvictedAgain := by
  intro s t c ids hr he h rax rbx rdx mem env u
  rw [exec_of_evictable hr he, Host.Outcome.next.injEq] at h
  have kept : Unchanged s t := h ▸ unchanged_evict s c ids
  have invalid : ∀ r, RegsReady u r → (u.epcm r.paSrc).valid = false := fun r ready => by
    have entry : (t.epcm c.regs.paSrc).valid = false := h ▸ ewbEvict_source_invalid s c ids
    have source := source_eq (u := u) kept.rcx kept.mode kept.ds kept.paging hr.regs ready
    have same : u.epcm c.regs.paSrc = t.epcm c.regs.paSrc := epcm_congr rfl _
    rwa [source, same]
  have notReady : ∀ d, ¬EwbReady u d := fun d ready => by
    have valid := ready.source.srcValid
    rw [invalid d.regs ready.regs] at valid
    cases valid
  refine ⟨notReady, fun v hv => ?_, fun r m h8 hq => ?_⟩
  · rcases vmExit_or_ready_of_next hv with ⟨-, -, -, la, pa, rfl⟩ | ⟨d, ready, -⟩
    · exact ⟨rfl, rfl, rfl⟩
    · exact absurd ready (notReady d)
  · rw [invalidSourcePageFaults u r m h8 hq (invalid r h8.s5.regs), h8.s5.regs.src]

/-- Settles O59: what EWB writes on no outcome, a step writes on none. -/
theorem stepKeepsConfiguration : Obligations.StepKeepsConfiguration := by
  intro s t h
  have next := execEnclsEwb_of_step_next h
  have kept := unchanged_of_next next
  exact ⟨kept, inEpc_of_next next, fun la acc => translate_congr kept.paging la acc⟩

end Sys2Proof.Machine
end

section
/-! Proofs about two runs of EWB side by side: the upper halves of the operand registers in ModeProt and DS in Mode64
are not seen, and the key reaches the ciphertext and the MAC only (rules R24, R26, R31, R109). -/

namespace Sys2Proof.Machine

/-! ### Two runs that end alike -/

/-- Both runs end in the same fault or refusal, or in next states of which `R` holds. -/
def EndAlike (R : State → State → Prop) :
    Host.Outcome State Fault Refusal → Host.Outcome State Fault Refusal → Prop
  | .next t, .next u => R t u
  | .fault f, .fault g => f = g
  | .refused p, .refused q => p = q
  | _, _ => False

/-- Runs whose checks answer alike end alike, where the VM exit and what follows the commit point do. -/
theorem endAlike_of_checks {R : State → State → Prop} {s u : State} (hchecks : ewbChecks u = ewbChecks s)
    (hcfg : u.cfg = s.cfg) (hrip : u.rip = s.rip)
    (hexit : ∀ la pa, R (s.deliverVmExit la pa) (u.deliverVmExit la pa))
    (hcommit : ∀ c, EwbReady s c → R (ewbCommit s c) (ewbCommit u c)) :
    EndAlike R (exec .enclsEwb s) (exec .enclsEwb u) := by
  rw [exec_enclsEwb, exec_enclsEwb, execEnclsEwb, execEnclsEwb, hchecks]
  cases h : ewbChecks s with
  | ok c => exact hcommit c ((ewbChecks_eq_ok_iff s c).mp h)
  | error e =>
    cases e with
    | vmExit la pa => exact hexit la pa
    | refusal r => exact rfl
    | exception x =>
      have taken : takeException u x = takeException s x := by cases x <;> simp only [takeException, hcfg, hrip]
      simp only [stopped, taken]
      cases x <;> exact rfl

/-! ### Other operand registers and another DS -/

/-- The state with the registers changed by `f` and DS by `g`. -/
def State.withRegsDs (s : State) (f : Regs → Regs) (g : Segment → Segment) : State :=
  { s with regs := f s.regs, ds := g s.ds }

/-- What of registers and DS the checks look at is the same in two states. -/
structure SameOperands (s u : State) : Prop where
  rbx : u.operand u.regs.rbx = s.operand s.regs.rbx
  rcx : u.operand u.regs.rcx = s.operand s.regs.rcx
  rdx : u.operand u.regs.rdx = s.operand s.regs.rdx
  operand : ∀ v, u.operand v = s.operand v
  addrOk : ∀ o size, u.addrOk o size = s.addrOk o size

section OtherRegsDs

variable {s : State} {f : Regs → Regs} {g : Segment → Segment}

theorem premises_withRegsDs (h : SameOperands s (s.withRegsDs f g)) : (s.withRegsDs f g).premises = s.premises := by
  have source : (s.withRegsDs f g).sourcePage? = s.sourcePage? := by
    rw [State.sourcePage?, reg_rcx, h.rcx, State.sourcePage?]
    rfl
  have others : ∀ p, (s.withRegsDs f g).otherPages p = s.otherPages p := fun p => by
    rw [State.otherPages, source, State.otherPages]
    rfl
  rw [State.premises, others, others, State.premises]
  rfl

theorem ewbRegOperands_withRegsDs (h : SameOperands s (s.withRegsDs f g)) :
    ewbRegOperands (s.withRegsDs f g) = ewbRegOperands s := by
  rw [ewbRegOperands, reg_rbx, reg_rcx, reg_rdx, h.rbx, h.rcx, h.rdx, h.addrOk, h.addrOk, h.addrOk, ewbRegOperands]
  rfl

theorem ewbInfoOperands_withRegsDs (h : SameOperands s (s.withRegsDs f g)) (r : RegOperands) :
    ewbInfoOperands (s.withRegsDs f g) r = ewbInfoOperands s r := by
  simp only [ewbInfoOperands, h.operand, h.addrOk]
  rfl

/-- The checks look at the operands and the limit test, and at nothing else of the registers and DS. -/
theorem ewbChecks_withRegsDs (h : SameOperands s (s.withRegsDs f g)) :
    ewbChecks (s.withRegsDs f g) = ewbChecks s := by
  rw [ewbChecks, premises_withRegsDs h, ewbRegOperands_withRegsDs h, ewbChecks]
  simp only [ewbInfoOperands_withRegsDs h]
  rfl

/-- From the commit point on no operand register and no DS is looked at or written. -/
theorem ewbCommit_withRegsDs (hf : ∀ r v, f (r.set .rax v) = (f r).set .rax v) (c : EwbContext) :
    ewbCommit (s.withRegsDs f g) c = (ewbCommit s c).withRegsDs f g := by
  have evictable : ewbEvictable (s.withRegsDs f g) c = ewbEvictable s c := rfl
  rw [ewbCommit, evictable, ewbCommit]
  cases ewbEvictable s c with
  | error code =>
    simp only [ewbErrorExit_eq, State.withRegsDs, hf]
  | ok ids =>
    have occupied : slotOccupied (s.withRegsDs f g) c = slotOccupied s c := rfl
    have writes : evictWrites (s.withRegsDs f g) c ids = evictWrites s c ids := rfl
    dsimp only
    rw [ewbEvict_eq, ewbEvict_eq, occupied, writes]
    simp only [State.withRegsDs, hf]

/-- EWB answers alike where the operands are the same, and leaves the other registers and DS as they are. -/
theorem endAlike_withRegsDs (h : SameOperands s (s.withRegsDs f g))
    (hf : ∀ r v, f (r.set .rax v) = (f r).set .rax v) :
    EndAlike (fun t u => u = t.withRegsDs f g) (exec .enclsEwb s) (exec .enclsEwb (s.withRegsDs f g)) :=
  endAlike_of_checks (ewbChecks_withRegsDs h) rfl rfl (fun _ _ => rfl) fun c _ => ewbCommit_withRegsDs hf c

end OtherRegsDs

/-- In ModeProt an operand depends on the low half of its register only (rules R26, R45). -/
theorem operand_of_low_half {s : State} {v w : Word} (hm : s.mode = .modeProt)
    (h : v.setWidth 32 = w.setWidth 32) : s.operand v = s.operand w := by
  rw [State.operand, State.operand, if_pos hm, if_pos hm, h]

/-- In Mode64 an operand is its register, whatever DS is (rules R24, R45). -/
theorem operand_mode64 {s : State} (hm : s.mode = .mode64) (v : Word) : s.operand v = { off := v, la := v } := by
  rw [State.operand, if_neg (by rw [hm]; decide)]

/-- In Mode64 no limit applies (rules R24, R47). -/
theorem addrOk_mode64 {s : State} (hm : s.mode = .mode64) (o : Operand) (size : Nat) :
    s.addrOk o size = canonical s.cfg.linearWidth o.la := by
  rw [State.addrOk, if_neg (by rw [hm]; decide)]

/-! ### Another key -/

/-- The writes of an eviction that take nothing from the cipher. -/
def plainWrites (s : State) (c : EwbContext) (ids : EnclaveIds) : List Write :=
  [secinfoWrite s c, flagsWrite s c, reservedWrite s c, enclaveIdWrite s c ids, linaddrWrite s c, slotWrite s c,
    contentWrite s c]

theorem evictWrites_eq (s : State) (c : EwbContext) (ids : EnclaveIds) :
    evictWrites s c ids = ciphertextWrite s c ids :: macWrite s c ids :: plainWrites s c ids := rfl

/-- A byte that reads alike in two memories does after the same writes. -/
theorem read_applyWrites_congr {m m' : Memory} (ws : List Write) {x : Nat} (h : m.read x = m'.read x) :
    (m.applyWrites ws).read x = (m'.applyWrites ws).read x := by
  induction ws generalizing m m' with
  | nil => exact h
  | cons w ws ih =>
    rw [applyWrites_cons, applyWrites_cons]
    refine ih ?_
    rw [read_writeBytes, read_writeBytes, h]

/-- A write covers no byte outside it. -/
theorem read_writeBytes_of_not_covers (m : Memory) {w : Write} {x : Nat} (h : ¬w.covers x) :
    (m.writeBytes w.address w.bytes).read x = m.read x :=
  read_writeBytes_outside m _ _ x h

/-- The state with another key. -/
def State.withKey (s : State) (key : BitVec 128) : State := { s with crBasePk := key }

/-- Under another key an eviction leaves other bytes in the output page and the MAC only (rule R109). -/
theorem read_evict_withKey {s : State} {c : EwbContext} {ids : EnclaveIds} {key : BitVec 128} {x : Nat}
    (hout : ¬Within c.info.paOut 4096 x) (hmac : ¬Within (c.info.paPcmd + s.cfg.pcmd.mac) s.cfg.pcmd.macSize x) :
    (ewbEvict (s.withKey key) c ids).mem.read x = (ewbEvict s c ids).mem.read x := by
  have plain : plainWrites (s.withKey key) c ids = plainWrites s c ids := rfl
  have before : ∀ t : State, t.mem = s.mem → t.cfg = s.cfg →
      ((t.mem.writeBytes (ciphertextWrite t c ids).address (ciphertextWrite t c ids).bytes).writeBytes
        (macWrite t c ids).address (macWrite t c ids).bytes).read x = s.mem.read x := fun t hm hc => by
    rw [read_writeBytes_of_not_covers _ (by rwa [covers_mac, hc]),
      read_writeBytes_of_not_covers _ (by rwa [covers_ciphertext]), hm]
  rw [ewbEvict_mem, ewbEvict_mem, evictWrites_eq, evictWrites_eq, plain, applyWrites_cons, applyWrites_cons,
    applyWrites_cons, applyWrites_cons]
  exact read_applyWrites_congr _ ((before (s.withKey key) rfl rfl).trans (before s rfl rfl).symm)

/-- A next state under another key: the key and memory may differ, memory in the output page and the MAC only. -/
def ApartInKeyAndOutput (s : State) (key : BitVec 128) (t u : State) : Prop :=
  u = { t with crBasePk := key, mem := u.mem } ∧
    ∀ x, u.mem.read x ≠ t.mem.read x → ∃ c, EwbReady s c ∧
      (Within c.info.paOut 4096 x ∨ Within (c.info.paPcmd + s.cfg.pcmd.mac) s.cfg.pcmd.macSize x)

/-- From the commit point on the key reaches the ciphertext and the MAC only (rule R109). -/
theorem ewbCommit_withKey {s : State} {c : EwbContext} (key : BitVec 128) (hr : EwbReady s c) :
    ApartInKeyAndOutput s key (ewbCommit s c) (ewbCommit (s.withKey key) c) := by
  have evictable : ewbEvictable (s.withKey key) c = ewbEvictable s c := rfl
  rw [ewbCommit, ewbCommit, evictable]
  cases ewbEvictable s c with
  | error code =>
    refine ⟨?_, fun x hx => absurd ?_ hx⟩
    · simp only [ewbErrorExit_eq, State.withKey]
    · simp only [ewbErrorExit_mem, State.withKey]
  | ok ids =>
    refine ⟨?_, fun x hx => ⟨c, hr, ?_⟩⟩
    · have occupied : slotOccupied (s.withKey key) c = slotOccupied s c := rfl
      have lengths : ((evictWrites (s.withKey key) c ids).map fun w => (w.address, w.bytes.length)) =
          (evictWrites s c ids).map fun w => (w.address, w.bytes.length) := by
        simp only [evictWrites_eq, List.map_cons, ciphertextWrite, macWrite, Vector.length_toList]
        rfl
      simp only [ewbEvict_eq, occupied, lengths]
      rfl
    · by_contra outside
      rw [not_or] at outside
      exact hx (read_evict_withKey outside.1 outside.2)

/-! ### The obligations -/

/-- Settles O50: in ModeProt the operands are the same. -/
theorem upperHalvesIgnoredInProt : Obligations.UpperHalvesIgnoredInProt := by
  intro s b c d hm hb hc hd
  exact endAlike_withRegsDs (f := fun r => { r with rbx := b, rcx := c, rdx := d }) (g := id)
    ⟨operand_of_low_half hm hb, operand_of_low_half hm hc, operand_of_low_half hm hd, fun _ => rfl, fun _ _ => rfl⟩
    fun _ _ => rfl

/-- Settles O51: in Mode64 the operands are the registers, and the test is the canonical one. -/
theorem dsIgnoredInMode64 : Obligations.DsIgnoredInMode64 := by
  intro s ds hm
  have operand : ∀ v, (s.withRegsDs id fun _ => ds).operand v = s.operand v := fun v => by
    rw [operand_mode64 hm, operand_mode64 (s := s.withRegsDs id fun _ => ds) hm]
  have addrOk : ∀ o size, (s.withRegsDs id fun _ => ds).addrOk o size = s.addrOk o size := fun o size => by
    rw [addrOk_mode64 hm, addrOk_mode64 (s := s.withRegsDs id fun _ => ds) hm]
    rfl
  exact endAlike_withRegsDs (f := id) (g := fun _ => ds) ⟨operand _, operand _, operand _, operand, addrOk⟩
    fun _ _ => rfl

/-- Settles O52: no check reads the key. -/
theorem keyReachesOnlyCiphertextAndMac : Obligations.KeyReachesOnlyCiphertextAndMac := by
  intro s key
  have alike : EndAlike (ApartInKeyAndOutput s key) (exec .enclsEwb s) (exec .enclsEwb (s.withKey key)) :=
    endAlike_of_checks rfl rfl rfl (fun _ _ => ⟨rfl, fun x hx => absurd rfl hx⟩) fun _ hr => ewbCommit_withKey key hr
  exact alike

end Sys2Proof.Machine
end
